-- ==== Sys2Proof/Word.lean ====
section
/-! DEFINITION. The word types of the engine: a buffer byte, the command word, the value ports. -/

namespace Sys2Proof

/-- One element of the buffer `BUF` (spec/10_state.md R10), bits 7 down to 0 (spec/00_scope.md R4). -/
abbrev Byte := BitVec 8

/-- What the port `CMD` carries: every command is one 16-bit word (spec/30_encoding.md R45). -/
abbrev CommandWord := BitVec 16

/-- What the ports `WDATA` and `RDATA` carry: `VW` = 64 bits (spec/00_scope.md section 6, R8). -/
abbrev Value := BitVec 64

/-- A 4-bit register or port: `WFILL`, `RFILL`, `EFLAGS` (spec/10_state.md section 1), `STATUS` (spec/00_scope.md R8). -/
abbrev Nibble := BitVec 4

end Sys2Proof
end

