-- ==== Sys2Proof/Config.lean ====
section
/-! DEFINITION. The implementation parameters of spec/00_scope.md section 6 that a machine fixes. -/

namespace Sys2Proof

/-- The parameter `CAP`, "a natural number or unbounded" (spec/00_scope.md section 6, decision D4): `none` is unbounded.
Every state carries the one it was built with (log entry 2), so a statement about every state is one about every `CAP`. -/
abbrev Capacity := Option Nat

/-- The `CAP` of `State.reset`. DESIGN CHOICE, unsafe (log entry 2): the spec leaves `CAP` open; unbounded is the
value for which, in the spec's words, the model matches the document. -/
def Config.resetCap : Capacity := none

/-- `SCRATCH_W`, the width of the splice accumulator (spec/00_scope.md section 6). No rule depends on it; that it is wide
enough is spec/40_bit_accounting.md R65. -/
def Config.scratchWidth : Nat := 72

end Sys2Proof
end

