-- ==== Sys2Proof/Syntax.lean ====
section
/-! DEFINITION. The commands of the engine: one constructor per row of spec/opcode_table.json. -/

namespace Sys2Proof

/-- The storage width a command names through its `SZ` field (spec/30_encoding.md R48). -/
inductive StorageWidth where
  | w8
  | w16
  | w32
  | w64
deriving DecidableEq, Repr

/-- A command, as the command word gives it (spec/30_encoding.md R47). The operands `WDATA` and `LSRC` travel on their own
ports beside the word (R45) and are read from the state by the meanings. -/
inductive Instr where
  /-- WRITE_BITS with storage width `w` and bit count `n` (spec/41_write.md). -/
  | writeBits (w : StorageWidth) (n : Nat)
  /-- READ_BITS with storage width `w` and bit count `n` (spec/42_read.md). -/
  | readBits (w : StorageWidth) (n : Nat)
  /-- LOAD (spec/44_bulk_and_cursor.md R89). -/
  | load
  /-- STORE (spec/44_bulk_and_cursor.md R92). -/
  | store
  /-- REWIND (spec/44_bulk_and_cursor.md R93). -/
  | rewind
deriving DecidableEq, Repr

end Sys2Proof
end

