-- ==== Sys2Proof/Machine/State.lean ====
section
/-! DEFINITION. The state of the engine as plain data: the seven pieces of state of spec/10_state.md section 1, the ports of
spec/00_scope.md R8, and what the host will present next. -/

namespace Sys2Proof.Machine

/-- The buffer `BUF` (spec/10_state.md R10): pairs of an index and the byte there, indices strictly rising. An index with
no pair holds no byte: there is no value an unlisted index reads as (spec/93_implementation_defined.md U7, log entry 4). -/
abbrev Memory := List Host.Cell

/-- The one canonical form of a buffer: indices strictly rising. No pair can repeat what an unlisted index reads as,
because an unlisted index reads as nothing. -/
abbrev Memory.wf (m : Memory) : Prop := m.Pairwise (fun x y => x.1 < y.1)

/-- The six status codes a command ends with (spec/60_exceptions.md R101). Codes 6 to 15 are never returned. -/
inductive Status where
  | ok
  | errContract
  | errBounds
  | errCapacity
  | errIllegal
  | errHalted
deriving DecidableEq, Repr

/-- The engine's four faults (spec/60_exceptions.md R100). -/
inductive FaultClass where
  /-- A bit count above the storage width, or a read with `RFILL` = 0 (R102). -/
  | contractViolation
  /-- A read that needs more bytes than the read region holds (R103). -/
  | boundsViolation
  /-- A WRITE_BITS or LOAD that would make `LEN` exceed `CAP` (R104). -/
  | capacityOverflow
  /-- A word that is none of the five commands (R105). -/
  | illegalCommand
deriving DecidableEq, Repr

/-- What the ports `STATUS`, `RDATA` and `SDST` carry when a command ends. The data ports are absent, not zero, but for an
OK READ_BITS and an OK STORE (spec/60_exceptions.md R109). -/
structure Response where
  status : Status
  rdata : Option Value
  sdst : Option (List Byte)
deriving DecidableEq, Repr

/-- What the host can do to the engine (spec/00_scope.md R8, R9): present any word as a command, with what stands on
`WDATA` and `LSRC` beside it; assert reset; read a status register by number. -/
inductive HostEvent where
  | command (cmd : CommandWord) (wdata : Value) (lsrc : List Byte)
  | reset
  | readStatus (number : Nat)
deriving DecidableEq, Repr

/-- The reasons the model stops with a fault. The engine's own four faults are not among them: they are next states
(log entry 12). -/
inductive Fault where
  /-- A rule asked for a buffer index that holds no byte. Raised by WRITE_BITS, READ_BITS and STORE; safe: the spec says
  no rule reads such an index (spec/10_state.md R10), and no state that meets the invariants of R16 raises it (log entry 4). -/
  | absentByte
deriving DecidableEq, Repr

/-- The reasons the model gives an instruction no meaning. -/
inductive Refusal where
  /-- An instruction whose arm of `exec` has no meaning yet. No arm raises it. Safe: nothing can be proved of a run past it. -/
  | notModelled (mnemonic : String)
deriving DecidableEq, Repr

/-- The state of the machine. The first seven fields are the spec's (spec/10_state.md section 1); the others are the
model's own: the open parameter, the ports, and what the host will present. -/
structure State where
  /-- `BUF` (R10). -/
  mem : Memory
  /-- `LEN`, the count of buffer bytes (R10). -/
  len : Nat
  /-- `WFILL`, how many low bits of the last byte are payload (R12). -/
  wfill : Nibble
  /-- `ROFF`, the offset of the read region (R13). -/
  roff : Nat
  /-- `RCNT`, the count of the read region (R13). -/
  rcnt : Nat
  /-- `RFILL`, how many high bits of the leading byte are unconsumed (R14). -/
  rfill : Nibble
  /-- `EFLAGS`, the sticky fault flags: bit 0 CV, bit 1 BV, bit 2 CO, bit 3 IC (R15). -/
  eflags : Nibble
  /-- The parameter `CAP`, which no step writes (log entry 2). -/
  cap : Capacity
  /-- What stands on the port `WDATA` (spec/30_encoding.md R50, log entry 6). -/
  wdata : Value
  /-- What stands on the port `LSRC`; its length is `LSRC_LEN` (spec/30_encoding.md R51, log entry 6). -/
  lsrc : List Byte
  /-- The response to the last completed command; none before the first (spec/70_reset_and_hazards.md R121, log entry 5). -/
  response : Option Response
  /-- What the status port handed out at the last status read (R19, log entry 7). -/
  statusOut : Option Nat
  /-- What the host will present, first element next (spec/00_scope.md R7, log entry 1). -/
  input : List HostEvent
deriving DecidableEq, Repr

/-- The engine right after reset, built with a given `CAP` (spec/10_state.md R18, spec/70_reset_and_hazards.md R120, R121). -/
def State.resetWith (cap : Capacity) : State where
  mem := []
  len := 0
  wfill := 0
  roff := 0
  rcnt := 0
  rfill := 0
  eflags := 0
  cap := cap
  wdata := 0
  lsrc := []
  response := none
  statusOut := none
  input := []

/-- The machine right after reset (spec/10_state.md R18): every register of the spec at the value R121 lists. The spec
leaves `CAP` open; this state has the one of `Config.resetCap` (log entry 2). -/
def State.reset : State := State.resetWith Config.resetCap

end Sys2Proof.Machine
end

