-- ==== Sys2Proof/Machine/Flags.lean ====
section
/-! DEFINITION. `EFLAGS`, the status codes, and what "halted" means (spec/10_state.md R15, spec/60_exceptions.md R101, R107). -/

namespace Sys2Proof.Machine

/-- The code the port `STATUS` carries (spec/60_exceptions.md R101). -/
def Status.code : Status → Nibble
  | .ok => 0
  | .errContract => 1
  | .errBounds => 2
  | .errCapacity => 3
  | .errIllegal => 4
  | .errHalted => 5

/-- The bit of `EFLAGS` a fault sets (spec/10_state.md R15, spec/60_exceptions.md R101). -/
def FaultClass.flagBit : FaultClass → Nat
  | .contractViolation => 0
  | .boundsViolation => 1
  | .capacityOverflow => 2
  | .illegalCommand => 3

/-- `EFLAGS` with the fault's bit alone set. -/
def FaultClass.flag (f : FaultClass) : Nibble := 1 <<< f.flagBit

/-- The status a fault is reported with (spec/60_exceptions.md R101). -/
def FaultClass.status : FaultClass → Status
  | .contractViolation => .errContract
  | .boundsViolation => .errBounds
  | .capacityOverflow => .errCapacity
  | .illegalCommand => .errIllegal

/-- `EFLAGS` after a fault: its flag set, every other flag as it was (spec/60_exceptions.md R106). -/
def setFlag (eflags : Nibble) (f : FaultClass) : Nibble := eflags ||| f.flag

/-- The engine is halted exactly when `EFLAGS` bit 0 or bit 3 is 1 (spec/60_exceptions.md R107). -/
def State.halted (s : State) : Bool :=
  s.eflags.getLsbD FaultClass.contractViolation.flagBit || s.eflags.getLsbD FaultClass.illegalCommand.flagBit

end Sys2Proof.Machine
end

