-- ==== Sys2Proof/WellFormed.lean ====
section
/-! DEFINITION. Which terms of `Instr` are commands a word can carry. -/

namespace Sys2Proof

/-- The bit count a command's field `NBITS` holds: 0 in the commands that do not use it (spec/30_encoding.md R47, R52). -/
def Instr.nbits : Instr → Nat
  | .writeBits _ n => n
  | .readBits _ n => n
  | .load => 0
  | .store => 0
  | .rewind => 0

/-- `NBITS` is a 7-bit unsigned number, 0 to 127, whatever the storage width: a count above the storage width is
encodable on purpose (spec/30_encoding.md R49). -/
abbrev Instr.WellFormed (i : Instr) : Prop := i.nbits ≤ 127

end Sys2Proof
end

