-- ==== Sys2Proof/Decode.lean ====
section
/-! DEFINITION. The decoder of spec/30_encoding.md, total on every 16-bit word, and the encoder beside it. -/

namespace Sys2Proof

/-! ### Storage widths -/

/-- The storage width a value of the field `SZ` selects (spec/30_encoding.md R48). -/
def StorageWidth.ofSz (sz : BitVec 2) : StorageWidth :=
  if sz = 0 then .w8 else if sz = 1 then .w16 else if sz = 2 then .w32 else .w64

/-- The value of the field `SZ` that selects a storage width (spec/30_encoding.md R48). -/
def StorageWidth.sz : StorageWidth → BitVec 2
  | .w8 => 0
  | .w16 => 1
  | .w32 => 2
  | .w64 => 3

/-- `sw = 8 << SZ` (spec/30_encoding.md R48). -/
def StorageWidth.bits (w : StorageWidth) : Nat := 8 <<< w.sz.toNat

/-! ### The fields of format C (spec/30_encoding.md R46) -/

/-- `OP`, bits 15:12. -/
def fieldOp (c : CommandWord) : BitVec 4 := c.extractLsb' 12 4

/-- `SZ`, bits 11:10. -/
def fieldSz (c : CommandWord) : BitVec 2 := c.extractLsb' 10 2

/-- `Z`, bits 9:7, reserved, must be 0. -/
def fieldZ (c : CommandWord) : BitVec 3 := c.extractLsb' 7 3

/-- `NBITS`, bits 6:0. -/
def fieldNbits (c : CommandWord) : BitVec 7 := c.extractLsb' 0 7

/-! ### Decoding -/

/-- Why a word is illegal. The names are the model's (log entry 8); the engine itself answers every one of them with the
same IllegalCommand fault (spec/60_exceptions.md R105). -/
inductive DecodeError where
  /-- The reserved field `Z` is not 0 (spec/30_encoding.md R52). -/
  | reservedField
  /-- `SZ` or `NBITS` is not 0 in a LOAD, STORE or REWIND (spec/30_encoding.md R52). -/
  | unusedField
  /-- `OP` is 0x0, 0x3 or 0x7 to 0xF (spec/30_encoding.md R47). -/
  | noSuchCommand
deriving DecidableEq, Repr

/-- A command that uses neither `SZ` nor `NBITS`: legal only where both are 0 (spec/30_encoding.md R52). -/
def decodePlain (i : Instr) (c : CommandWord) : Except DecodeError Instr :=
  if fieldSz c = 0 ∧ fieldNbits c = 0 then .ok i else .error .unusedField

/-- The decoder of spec/30_encoding.md R59. Total: every 16-bit word is a command or is rejected by name (R53). -/
def decode (c : CommandWord) : Except DecodeError Instr :=
  if fieldZ c ≠ 0 then .error .reservedField
  else if fieldOp c = 0x1 then .ok (.writeBits (.ofSz (fieldSz c)) (fieldNbits c).toNat)
  else if fieldOp c = 0x2 then .ok (.readBits (.ofSz (fieldSz c)) (fieldNbits c).toNat)
  else if fieldOp c = 0x4 then decodePlain .load c
  else if fieldOp c = 0x5 then decodePlain .store c
  else if fieldOp c = 0x6 then decodePlain .rewind c
  else .error .noSuchCommand

/-- The command word the host's opcode table numbers by `w`: a command is one 16-bit word, whose bit 0 is the table's bit
0; it stands on a port, in no byte order (spec/30_encoding.md R45, log entry 8). Bits at and above `nbits` are 0. -/
def tableWord (nbits w : Nat) : CommandWord := BitVec.ofNat 16 (w % 2 ^ nbits)

/-- The command the decoder reads from the word the opcode table numbers by `w`. -/
def decodeTableWord (nbits w : Nat) : Option Instr := (decode (tableWord nbits w)).toOption

/-! ### Encoding (spec/30_encoding.md R46, R47, R57) -/

/-- Format C with `Z` = 0: the fields side by side, `OP` highest. -/
def formatC (op : BitVec 4) (sz : BitVec 2) (nbits : BitVec 7) : CommandWord :=
  op.setWidth 16 <<< 12 ||| sz.setWidth 16 <<< 10 ||| nbits.setWidth 16

/-- The word of a well-formed command. -/
def encode : Instr → CommandWord
  | .writeBits w n => formatC 0x1 w.sz (BitVec.ofNat 7 n)
  | .readBits w n => formatC 0x2 w.sz (BitVec.ofNat 7 n)
  | .load => formatC 0x4 0 0
  | .store => formatC 0x5 0 0
  | .rewind => formatC 0x6 0 0

/-- The pseudo-command READ_AS.w is READ_BITS.w w (spec/30_encoding.md R58, spec/42_read.md R82). -/
def readAs (w : StorageWidth) : Instr := .readBits w w.bits

end Sys2Proof
end

