-- ==== Sys2Proof/Machine/Accounting.lean ====
section
/-! DEFINITION. The bit-width accounting of spec/40_bit_accounting.md. -/

namespace Sys2Proof.Machine

/-- `bytes_needed(n)`: how many whole bytes hold `n` bits (spec/40_bit_accounting.md R60). -/
def bytesNeeded (n : Nat) : Nat := (n + 7) / 8

/-- `fill_of(m)`: how many bits of its last byte a run of `m` bits fills, 1 to 8. The spec defines it for `m ≥ 1` only and
applies it to no other value (spec/40_bit_accounting.md R62, log entry 14). -/
def fillOf (m : Nat) : Nat := if m % 8 = 0 then 8 else m % 8

end Sys2Proof.Machine
end

