-- ==== Sys2Proof/Machine/Region.lean ====
section
/-! DEFINITION. The byte-region view of spec/43_region_view.md: pure, bounds-checked windows on the buffer. -/

namespace Sys2Proof.Machine

/-- A region: offset and count, naming the bytes from `offset` up to `offset + count - 1` (spec/43_region_view.md). -/
structure Region where
  offset : Nat
  count : Nat
deriving DecidableEq, Repr

/-- A region is valid for a buffer of length `len` (spec/43_region_view.md, before R83). -/
abbrev Region.ValidFor (r : Region) (len : Nat) : Prop := r.offset + r.count ≤ len

/-- `Subspan1` (spec/43_region_view.md R83). `none` is "no such region", not the empty one (R86). -/
def Region.subspan1 (r : Region) (off : Nat) : Option Region :=
  if off ≤ r.count then some { offset := r.offset + off, count := r.count - off } else none

/-- `Subspan2` (spec/43_region_view.md R84). -/
def Region.subspan2 (r : Region) (off cnt : Nat) : Option Region :=
  if off + cnt ≤ r.count then some { offset := r.offset + off, count := cnt } else none

/-- `IsEmpty` (spec/43_region_view.md R85). -/
def Region.isEmpty (r : Region) : Bool := r.count == 0

end Sys2Proof.Machine
end

