-- ==== Sys2Proof/Machine/Operands.lean ====
section
/-! DEFINITION. What each command takes its operands and addresses from: the ports and the two cursors
(spec/30_encoding.md R48 to R51, spec/20_memory.md R39). -/

namespace Sys2Proof.Machine

/-- The operand of WRITE_BITS: the 64-bit unsigned number on `WDATA` (spec/30_encoding.md R50). -/
def State.writeOperand (s : State) : Nat := s.wdata.toNat

/-- `LSRC_LEN`, how many bytes stand on `LSRC` (spec/30_encoding.md R51). -/
def State.lsrcLen (s : State) : Nat := s.lsrc.length

/-- The trailing byte is partially filled: `1 <= WFILL <= 7` (spec/41_write.md R68, first line). -/
abbrev State.trailingIsPartial (s : State) : Prop := 1 ≤ s.wfill.toNat ∧ s.wfill.toNat ≤ 7

/-- `f`: the bits of the trailing byte already filled, 0 when the buffer is empty or aligned (spec/41_write.md R68). -/
def State.writeFill (s : State) : Nat := if s.trailingIsPartial then s.wfill.toNat else 0

/-- `base`: the index the first emitted byte goes to (spec/41_write.md R68, spec/20_memory.md R39). -/
def State.writeBase (s : State) : Nat := if s.trailingIsPartial then s.len - 1 else s.len

/-- `k`: how many bytes a WRITE_BITS of `n` bits emits (spec/41_write.md R68). -/
def State.writeCount (s : State) (n : Nat) : Nat := bytesNeeded (s.writeFill + n)

/-- The read region `(ROFF, RCNT)` (spec/10_state.md R13). -/
def State.readRegion (s : State) : Region := { offset := s.roff, count := s.rcnt }

/-- `head_read_bits`, `h`: the bits of the leading byte already consumed (spec/42_read.md R76). `RFILL` above 8 is in no
state that commands or reset reach (spec/10_state.md R16 item b); there the difference is 0 (log entry 9). -/
def State.headReadBits (s : State) : Nat := 8 - s.rfill.toNat

/-- `k`: how many bytes a READ_BITS of `n` bits touches (spec/42_read.md R76). -/
def State.readCount (s : State) (n : Nat) : Nat := bytesNeeded (n + s.headReadBits)

/-- A buffer of `len` bytes does not exceed `CAP` (spec/41_write.md R67 check 4, spec/44_bulk_and_cursor.md R90 check 2). -/
def withinCapacity (cap : Capacity) (len : Nat) : Bool :=
  match cap with
  | none => true
  | some c => len ≤ c

end Sys2Proof.Machine
end

