-- ==== Sys2Proof/Machine/Ops.lean ====
section
/-! DEFINITION. The named operations over the buffer, the response ports, the fault entry every command shares, and the
three things the host can do (spec/20_memory.md, spec/60_exceptions.md, spec/00_scope.md R9). -/

namespace Sys2Proof.Machine

/-! ### One byte of the buffer -/

/-- `BUF[a]`, or nothing where the buffer has no byte at `a` (spec/10_state.md R10). -/
def Memory.read : Memory → Nat → Option Byte
  | [], _ => none
  | (k, b) :: m, a => if k = a then some b else Memory.read m a

/-- `BUF[a] <- b`, keeping the indices strictly rising. -/
def Memory.write : Memory → Nat → Byte → Memory
  | [], a, b => [(a, b)]
  | (k, c) :: m, a, b =>
    if a < k then (a, b) :: (k, c) :: m
    else if a = k then (a, b) :: m
    else (k, c) :: Memory.write m a b

/-! ### Runs of bytes -/

/-- `MemRead(a, n)`: `n` consecutive bytes as a number, the lowest index least significant (spec/20_memory.md R33).
Nothing where one of the bytes is absent. -/
def Memory.readNat (m : Memory) : Nat → Nat → Option Nat
  | _, 0 => some 0
  | a, n + 1 =>
    match m.read a, m.readNat (a + 1) n with
    | some b, some v => some (b.toNat + 256 * v)
    | _, _ => none

/-- `MemWrite(a, n, v)`: the `n` low bytes of `v`, the least significant at index `a` (spec/20_memory.md R34). -/
def Memory.writeNat (m : Memory) : Nat → Nat → Nat → Memory
  | _, 0, _ => m
  | a, n + 1, v => Memory.writeNat (m.write a (BitVec.ofNat 8 v)) (a + 1) n (v / 256)

/-- The bytes from index `a`, `n` of them, as a sequence (spec/44_bulk_and_cursor.md R92). Nothing where one is absent. -/
def Memory.readBytes (m : Memory) : Nat → Nat → Option (List Byte)
  | _, 0 => some []
  | a, n + 1 =>
    match m.read a, m.readBytes (a + 1) n with
    | some b, some bs => some (b :: bs)
    | _, _ => none

/-- The buffer that holds a byte sequence from index `a` up and nothing else (spec/44_bulk_and_cursor.md R89). -/
def Memory.ofBytes : Nat → List Byte → Memory
  | _, [] => []
  | a, b :: bs => (a, b) :: Memory.ofBytes (a + 1) bs

/-! ### Responses -/

/-- The command ends with a status and no data (spec/60_exceptions.md R101, R109). -/
def State.respond (s : State) (st : Status) : State :=
  { s with response := some { status := st, rdata := none, sdst := none } }

/-- An OK READ_BITS hands out `zext_64(v)` on `RDATA` (spec/42_read.md R76). -/
def State.respondValue (s : State) (v : Nat) : State :=
  { s with response := some { status := .ok, rdata := some (BitVec.ofNat 64 v), sdst := none } }

/-- An OK STORE hands out a byte sequence on `SDST` (spec/44_bulk_and_cursor.md R92). -/
def State.respondBytes (s : State) (bs : List Byte) : State :=
  { s with response := some { status := .ok, rdata := none, sdst := some bs } }

/-! ### Taking a fault -/

/-- `raise <Fault>`, the one fault entry of the engine: the fault's flag is set in `EFLAGS`, the response carries its
status and no data, and nothing else changes; nothing is saved and nothing is redirected (spec/60_exceptions.md R106).
There is no return: only reset clears a flag (R112). -/
def State.raise (s : State) (f : FaultClass) : State :=
  { s with eflags := setFlag s.eflags f }.respond f.status

/-- A command presented to a halted engine is refused with `ERR_HALTED` and changes nothing (spec/60_exceptions.md R108). -/
def State.refuseHalted (s : State) : State := s.respond .errHalted

/-! ### The status port -/

/-- The value of a status register by number; numbers 6 and above read as 0 (spec/10_state.md R19). -/
def State.statusRegister (s : State) (number : Nat) : Nat :=
  match number with
  | 0 => s.len
  | 1 => s.wfill.toNat
  | 2 => s.roff
  | 3 => s.rcnt
  | 4 => s.rfill.toNat
  | 5 => s.eflags.toNat
  | _ => 0

/-! ### What the host can do (spec/00_scope.md R9), each taking its event off the list of what the host will present -/

/-- A command stands on `CMD`, with its operands on `WDATA` and `LSRC` (spec/30_encoding.md R45, R50, R51). -/
def State.present (s : State) (rest : List HostEvent) (wdata : Value) (lsrc : List Byte) : State :=
  { s with wdata := wdata, lsrc := lsrc, input := rest }

/-- Reset is asserted: every register at its reset value, whatever state the engine was in (spec/70_reset_and_hazards.md
R120). What the host will present after it stays, and so does `CAP`, which is no state (spec/10_state.md R23). -/
def State.resetInput (s : State) (rest : List HostEvent) : State :=
  { State.resetWith s.cap with input := rest }

/-- A status register is read: its value stands on the status port; no register changes (spec/10_state.md R19). -/
def State.readStatus (s : State) (rest : List HostEvent) (number : Nat) : State :=
  { s with statusOut := some (s.statusRegister number), input := rest }

end Sys2Proof.Machine
end

