-- ==== Sys2Proof/Machine/Bulk.lean ====
section
/-! DEFINITION. The commands that move the whole buffer or reset the read cursor: LOAD, STORE, REWIND
(spec/44_bulk_and_cursor.md). -/

namespace Sys2Proof.Machine

/-- A fill count over a buffer of `len` bytes with the cursor byte-aligned: 8, or 0 where there is no byte
(spec/44_bulk_and_cursor.md R89, R93). -/
def alignedFill (len : Nat) : Nibble := if 1 ≤ len then 8 else 0

/-- The read cursor at bit 0 of the buffer (spec/44_bulk_and_cursor.md R93; R89 leaves it so too). -/
def State.seekStart (s : State) : State :=
  { s with roff := 0, rcnt := s.len, rfill := alignedFill s.len }

/-- The buffer replaced wholesale by the bytes on `LSRC`, both cursors byte-aligned (spec/44_bulk_and_cursor.md R89). -/
def State.afterLoad (s : State) : State :=
  { s with mem := Memory.ofBytes 0 s.lsrc, len := s.lsrcLen, wfill := alignedFill s.lsrcLen }.seekStart

/-- LOAD: the checks of spec/44_bulk_and_cursor.md R90, then the effect of R89. -/
def execLoad (s : State) : Host.Outcome State Fault Refusal :=
  if s.halted then .next s.refuseHalted
  else if withinCapacity s.cap s.lsrcLen = false then .next (s.raise .capacityOverflow)
  else .next (s.afterLoad.respond .ok)

/-- STORE hands out the whole buffer from index 0 and changes no state (spec/44_bulk_and_cursor.md R92). -/
def execStore (s : State) : Host.Outcome State Fault Refusal :=
  if s.halted then .next s.refuseHalted
  else
    match s.mem.readBytes 0 s.len with
    | some bs => .next (s.respondBytes bs)
    | none => .fault .absentByte

/-- REWIND: the read cursor to the start, the write cursor untouched (spec/44_bulk_and_cursor.md R93). -/
def execRewind (s : State) : Host.Outcome State Fault Refusal :=
  if s.halted then .next s.refuseHalted
  else .next (s.seekStart.respond .ok)

end Sys2Proof.Machine
end

