-- ==== Sys2Proof/Machine/Read.lean ====
section
/-! DEFINITION. The read path: READ_BITS, and with it the pseudo-command READ_AS (spec/42_read.md). -/

namespace Sys2Proof.Machine

/-- `r`: how many bits of the last touched byte are consumed, 0 when it is used up (spec/42_read.md R76). -/
def State.readTail (s : State) (n : Nat) : Nat := (s.headReadBits + n) % 8

/-- `drop`: how many bytes leave the front of the read region (spec/42_read.md R76, step 6). -/
def State.readDrop (s : State) (n : Nat) : Nat :=
  if s.readTail n = 0 then s.readCount n else s.readCount n - 1

/-- `RFILL` after a read of `n` bits (spec/42_read.md R76, step 6). -/
def State.rfillAfterRead (s : State) (n : Nat) : Nibble :=
  if s.readTail n = 0 then 8 else BitVec.ofNat 4 (8 - s.readTail n)

/-- `val`: the touched bytes `seq` less the consumed bits, masked to `n` bits (spec/42_read.md R76, steps 4 and 5). -/
def extractField (seq h n : Nat) : Nat := (seq >>> h) % 2 ^ n

/-- The state registers after a read of `n` bits that passed every check (spec/42_read.md R76). -/
def State.afterRead (s : State) (n : Nat) : State :=
  { s with
    roff := s.roff + s.readDrop n
    rcnt := s.rcnt - s.readDrop n
    rfill := s.rfillAfterRead n }

/-- READ_BITS: the checks of spec/42_read.md R75 in their order, then the effect of R76. -/
def execReadBits (w : StorageWidth) (n : Nat) (s : State) : Host.Outcome State Fault Refusal :=
  if s.halted then .next s.refuseHalted
  else if w.bits < n then .next (s.raise .contractViolation)
  else if s.rfill = 0 then .next (s.raise .contractViolation)
  else
    match s.readRegion.subspan2 0 (s.readCount n) with
    | none => .next (s.raise .boundsViolation)
    | some r =>
      match s.mem.readNat r.offset r.count with
      | some seq => .next ((s.afterRead n).respondValue (extractField seq s.headReadBits n))
      | none => .fault .absentByte

end Sys2Proof.Machine
end

