-- ==== Sys2Proof/Machine/Write.lean ====
section
/-! DEFINITION. The write path: WRITE_BITS (spec/41_write.md). -/

namespace Sys2Proof.Machine

/-- `t`, the reclaimed trailing byte, 0 where none is reclaimed (spec/41_write.md R68). Nothing where the byte is absent. -/
def State.reclaimedByte (s : State) : Option Byte :=
  if s.trailingIsPartial then s.mem.read (s.len - 1) else some 0

/-- `comb`: the operand shifted above the reclaimed byte `t`, merged with it, masked to `output_bits` (spec/41_write.md R68). -/
def combine (v f t n : Nat) : Nat := (v <<< f ||| t) % 2 ^ (f + n)

/-- `RFILL` after a write of `n` bits: a first write into an empty buffer establishes it, any other leaves it
(spec/41_write.md R69). -/
def State.rfillAfterWrite (s : State) (n : Nat) : Nibble :=
  if s.len = 0 then BitVec.ofNat 4 (min (s.writeFill + n) 8) else s.rfill

/-- The state registers and the buffer after a write of `n` bits that passed every check (spec/41_write.md R68). -/
def State.afterWrite (s : State) (n : Nat) (t : Byte) : State :=
  { s with
    mem := s.mem.writeNat s.writeBase (s.writeCount n) (combine s.writeOperand s.writeFill t.toNat n)
    len := s.writeBase + s.writeCount n
    wfill := BitVec.ofNat 4 (fillOf (s.writeFill + n))
    rcnt := s.writeBase + s.writeCount n - s.roff
    rfill := s.rfillAfterWrite n }

/-- WRITE_BITS: the checks of spec/41_write.md R67 in their order, then the effect of R68. -/
def execWriteBits (w : StorageWidth) (n : Nat) (s : State) : Host.Outcome State Fault Refusal :=
  if s.halted then .next s.refuseHalted
  else if w.bits < n then .next (s.raise .contractViolation)
  else if n = 0 then .next (s.respond .ok)
  else if withinCapacity s.cap (s.writeBase + s.writeCount n) = false then .next (s.raise .capacityOverflow)
  else
    match s.reclaimedByte with
    | some t => .next ((s.afterWrite n t).respond .ok)
    | none => .fault .absentByte

end Sys2Proof.Machine
end

