-- ==== Sys2Proof/Machine/Dispatch.lean ====
section
/-! DEFINITION. Which meaning each command has: one arm per constructor of `Instr`. -/

namespace Sys2Proof.Machine

/-- What one command does to the state (spec/30_encoding.md R47). -/
def exec (i : Instr) (s : State) : Host.Outcome State Fault Refusal :=
  match i with
  | .writeBits w n => Sys2Proof.Machine.execWriteBits w n s
  | .readBits w n => Sys2Proof.Machine.execReadBits w n s
  | .load => Sys2Proof.Machine.execLoad s
  | .store => Sys2Proof.Machine.execStore s
  | .rewind => Sys2Proof.Machine.execRewind s

end Sys2Proof.Machine
end

