-- ==== Sys2Proof/Machine/Step.lean ====
section
/-! DEFINITION. One step of the machine: the next thing the host does, carried out to completion. -/

namespace Sys2Proof.Machine

/-- A word on `CMD`, its operands already on their ports: the halted check comes before decoding (spec/60_exceptions.md
R108), an illegal word raises IllegalCommand (R105), any other runs its command. -/
def runCommand (c : CommandWord) (s : State) : Host.Outcome State Fault Refusal :=
  if s.halted then .next s.refuseHalted
  else
    match decode c with
    | .ok i => exec i s
    | .error _ => .next (s.raise .illegalCommand)

/-- One step: the host's next event (spec/00_scope.md R7, R9). With nothing to come the engine does nothing, since it
never acts on its own (R7; log entry 1). -/
def step (s : State) : Host.Outcome State Fault Refusal :=
  match s.input with
  | [] => .next s
  | .command c wdata lsrc :: rest => runCommand c (s.present rest wdata lsrc)
  | .reset :: rest => .next (s.resetInput rest)
  | .readStatus number :: rest => .next (s.readStatus rest number)

/-- The state whose next step runs the word the opcode table numbers by `w`: the host presents it before anything else,
with what stands on `WDATA` and `LSRC` already (log entry 1). -/
def State.withFetchWord (s : State) (nbits w : Nat) : State :=
  { s with input := .command (tableWord nbits w) s.wdata s.lsrc :: s.input }

end Sys2Proof.Machine
end

