-- ==== Sys2Proof/Machine/Assembler.lean ====
section
/-! DEFINITION. The assembler syntax of spec/30_encoding.md R57 and the pseudo-command of R58: what a line of text makes the
host present. The engine never sees a line; no meaning calls anything here. -/

namespace Sys2Proof.Machine

/-- A line of the assembler (spec/30_encoding.md R57, and READ_AS of R58). -/
inductive AsmLine where
  | writeBits (w : StorageWidth) (value n : Nat)
  | readBits (w : StorageWidth) (n : Nat)
  | readAs (w : StorageWidth)
  | load (bytes : List Nat)
  | store
  | rewind
deriving DecidableEq, Repr

/-- What the host presents for a line: the word of R57's table, the value on `WDATA`, the bytes on `LSRC`. A port a command
ignores carries 0, or no bytes (log entry 11). Nothing for an operand out of its range. -/
def assemble : AsmLine → Option HostEvent
  | .writeBits w value n =>
    if value < 2 ^ 64 ∧ n ≤ 127 then some (.command (encode (.writeBits w n)) (BitVec.ofNat 64 value) []) else none
  | .readBits w n => if n ≤ 127 then some (.command (encode (.readBits w n)) 0 []) else none
  | .readAs w => some (.command (encode (readAs w)) 0 [])
  | .load bytes =>
    if bytes.all (· < 256) then some (.command (encode .load) 0 (bytes.map (BitVec.ofNat 8))) else none
  | .store => some (.command (encode .store) 0 [])
  | .rewind => some (.command (encode .rewind) 0 [])

/-! ### From text to a line -/

/-- What a line of text is made of. -/
inductive AsmToken where
  | word (cs : List Char)
  | comma
  | opening
  | closing
deriving DecidableEq, Repr

/-- The word read so far, if there is one, put before the rest. -/
def endWord (cur : List Char) (rest : List AsmToken) : List AsmToken :=
  if cur.isEmpty then rest else .word cur.reverse :: rest

/-- The tokens of a line; `;` starts a comment (spec/30_encoding.md R57). `cur` is the word being read, last character first;
characters 123 and 125 are the two braces. -/
def asmTokens : List Char → List Char → List AsmToken
  | [], cur => endWord cur []
  | c :: cs, cur =>
    if c = ';' then endWord cur []
    else if c = ' ' ∨ c = '\t' then endWord cur (asmTokens cs [])
    else if c = ',' then endWord cur (.comma :: asmTokens cs [])
    else if c.toNat = 123 then endWord cur (.opening :: asmTokens cs [])
    else if c.toNat = 125 then endWord cur (.closing :: asmTokens cs [])
    else asmTokens cs (c :: cur)

/-- The value of a digit of a hexadecimal number, in either case of letter (log entry 11). -/
def hexDigit (c : Char) : Option Nat :=
  if 48 ≤ c.toNat ∧ c.toNat ≤ 57 then some (c.toNat - 48)
  else if 65 ≤ c.toNat ∧ c.toNat ≤ 70 then some (c.toNat - 55)
  else if 97 ≤ c.toNat ∧ c.toNat ≤ 102 then some (c.toNat - 87)
  else none

/-- The number a run of digits spells in a base, most significant digit first. -/
def digitsValue (base : Nat) : List Char → Nat → Option Nat
  | [], acc => some acc
  | c :: cs, acc =>
    match hexDigit c with
    | some d => if d < base then digitsValue base cs (base * acc + d) else none
    | none => none

/-- "Numbers are decimal, or hexadecimal with `0x`" (spec/30_encoding.md R57). -/
def asmNumber : List Char → Option Nat
  | [] => none
  | '0' :: 'x' :: c :: cs => digitsValue 16 (c :: cs) 0
  | c :: cs => digitsValue 10 (c :: cs) 0

/-- The storage width a mnemonic's suffix names, where the rest of it is `base` (spec/30_encoding.md R57). -/
def widthSuffix (base m : List Char) : Option StorageWidth :=
  if m = base ++ ['.', '8'] then some .w8
  else if m = base ++ ['.', '1', '6'] then some .w16
  else if m = base ++ ['.', '3', '2'] then some .w32
  else if m = base ++ ['.', '6', '4'] then some .w64
  else none

def asmWriteBits : List Char := ['W', 'R', 'I', 'T', 'E', '_', 'B', 'I', 'T', 'S']
def asmReadBits : List Char := ['R', 'E', 'A', 'D', '_', 'B', 'I', 'T', 'S']
def asmReadAs : List Char := ['R', 'E', 'A', 'D', '_', 'A', 'S']
def asmLoad : List Char := ['L', 'O', 'A', 'D']
def asmStore : List Char := ['S', 'T', 'O', 'R', 'E']
def asmRewind : List Char := ['R', 'E', 'W', 'I', 'N', 'D']

/-- The bytes of a LOAD after its opening brace: numbers with commas between them, then the closing brace. -/
def asmBytes : List AsmToken → Option (List Nat)
  | [.closing] => some []
  | [.word w, .closing] => (asmNumber w).map fun v => [v]
  | .word w :: .comma :: .word w' :: rest =>
    match asmNumber w, asmBytes (.word w' :: rest) with
    | some v, some vs => some (v :: vs)
    | _, _ => none
  | _ => none

/-- What a line of text is. -/
inductive LineParse where
  | blank
  | line (l : AsmLine)
  | notALine
deriving DecidableEq, Repr

/-- A line, if there is one. -/
def LineParse.ofOption : Option AsmLine → LineParse
  | some l => .line l
  | none => .notALine

/-- The lines of R57's table, and READ_AS of R58, from their tokens. -/
def parseTokens : List AsmToken → LineParse
  | [] => .blank
  | [.word m, .word v, .comma, .word n] =>
    match widthSuffix asmWriteBits m, asmNumber v, asmNumber n with
    | some w, some v, some n => .line (.writeBits w v n)
    | _, _, _ => .notALine
  | [.word m, .word n] =>
    match widthSuffix asmReadBits m, asmNumber n with
    | some w, some n => .line (.readBits w n)
    | _, _ => .notALine
  | .word m :: .opening :: rest =>
    if m = asmLoad then .ofOption ((asmBytes rest).map .load) else .notALine
  | [.word m] =>
    if m = asmStore then .line .store
    else if m = asmRewind then .line .rewind
    else .ofOption ((widthSuffix asmReadAs m).map .readAs)
  | _ => .notALine

/-- A line of assembler text (spec/30_encoding.md R57): at most one command, and a comment. -/
def parseLine (text : List Char) : LineParse := parseTokens (asmTokens text [])

end Sys2Proof.Machine
end

