-- ==== Sys2Proof/Machine/Stream.lean ====
section
/-! DEFINITION. The buffer as one bit string, and the two bit positions of the cursors: the spec's own derived notions, in
which its rules say what writing and reading mean (spec/20_memory.md R43, spec/41_write.md R72, spec/42_read.md R80). No
meaning calls them. -/

namespace Sys2Proof.Machine

/-- `StreamBit(p) = BUF[p div 8][p mod 8]` (spec/20_memory.md R43), as 0 or 1. A position with no byte under it, which the
spec gives no bit, counts as 0 (log entry 14). -/
def Memory.streamBit (m : Memory) (p : Nat) : Nat :=
  match m.read (p / 8) with
  | some b => (b.getLsbD (p % 8)).toNat
  | none => 0

/-- `StreamBits(p, n)`, the sum over `k < n` of `StreamBit(p + k) << k` (spec/20_memory.md R43). -/
def Memory.streamBits (m : Memory) (p : Nat) : Nat → Nat
  | 0 => 0
  | n + 1 => m.streamBits p n + m.streamBit (p + n) <<< n

/-- `TB`, the payload length in bits (spec/41_write.md R72). -/
def State.payloadBits (s : State) : Nat := if s.len = 0 then 0 else 8 * (s.len - 1) + s.wfill.toNat

/-- `RP`, the position of the next bit to read; the spec defines it where `RFILL >= 1` (spec/42_read.md R80, log entry 14). -/
def State.readPosition (s : State) : Nat := 8 * s.roff + s.headReadBits

end Sys2Proof.Machine
end

