-- ==== Sys2Proof/Safety.lean ====
section
/-! DEFINITION. What claims speak of: the invariants of spec/10_state.md R16, a state with no fault recorded, and runs. -/

namespace Sys2Proof.Machine

/-! ### The invariants of spec/10_state.md R16 -/

/-- The buffer holds a byte at every index below `LEN`, at no other, and lists them in order (spec/10_state.md R10). -/
abbrev State.bufferIsDense (s : State) : Prop := s.mem.map Prod.fst = List.range s.len

/-- Item a: the read region is a suffix of the buffer. -/
abbrev State.regionIsSuffix (s : State) : Prop := s.roff + s.rcnt = s.len

/-- Item b: an empty buffer is what a fill of 0 means, and a fill is 1 to 8 otherwise. -/
abbrev State.fillsMatchLength (s : State) : Prop :=
  (s.len = 0 ↔ s.wfill.toNat = 0) ∧ (s.len = 0 ↔ s.rfill.toNat = 0) ∧ s.wfill.toNat ≤ 8 ∧ s.rfill.toNat ≤ 8

/-- Item c: `LEN <= CAP`. -/
abbrev State.fitsCapacity (s : State) : Prop := withinCapacity s.cap s.len = true

/-- Item e: the bits of the trailing byte above the fill are zero. -/
abbrev State.paddingIsZero (s : State) : Prop :=
  s.trailingIsPartial → ((s.mem.read (s.len - 1)).getD 0).toNat < 2 ^ s.wfill.toNat

/-- Item f: with every byte read, the read cursor is byte-aligned. -/
abbrev State.drainedIsAligned (s : State) : Prop := s.rcnt = 0 → 1 ≤ s.len → s.rfill.toNat = 8

/-- The invariants of spec/10_state.md R16: items a, b, c, e and f, and that the buffer's bytes are those below `LEN`.
Item d follows from item a; item g states nothing. -/
abbrev State.Inv (s : State) : Prop :=
  s.bufferIsDense ∧ s.regionIsSuffix ∧ s.fillsMatchLength ∧ s.fitsCapacity ∧ s.paddingIsZero ∧ s.drainedIsAligned

/-! ### Parts of a state -/

/-- The stream registers and the buffer, the part of the state a fault leaves as it was (spec/60_exceptions.md R106). -/
structure Stream where
  mem : Memory
  len : Nat
  wfill : Nibble
  roff : Nat
  rcnt : Nat
  rfill : Nibble
deriving DecidableEq, Repr

def State.stream (s : State) : Stream :=
  { mem := s.mem, len := s.len, wfill := s.wfill, roff := s.roff, rcnt := s.rcnt, rfill := s.rfill }

/-- The model's own fields that no command writes: the parameter, the ports the host drives, the status port, and what the
host will present. -/
structure HostSide where
  cap : Capacity
  wdata : Value
  lsrc : List Byte
  statusOut : Option Nat
  input : List HostEvent
deriving DecidableEq, Repr

def State.hostSide (s : State) : HostSide :=
  { cap := s.cap, wdata := s.wdata, lsrc := s.lsrc, statusOut := s.statusOut, input := s.input }

/-- No fault is recorded (spec/60_exceptions.md R113). -/
abbrev State.noFaultRecorded (s : State) : Prop := s.eflags = 0

/-- The status of the last response, if there is one. -/
def State.lastStatus (s : State) : Option Status := s.response.map Response.status

/-- What the last response carried on `RDATA`, if anything (spec/60_exceptions.md R109). -/
def State.lastRdata (s : State) : Option Value := s.response.bind Response.rdata

/-- What the last response carried on `SDST`, if anything (spec/60_exceptions.md R109). -/
def State.lastSdst (s : State) : Option (List Byte) := s.response.bind Response.sdst

/-! ### Runs -/

/-- The host presents a list of events and nothing else. -/
def State.withInput (s : State) (es : List HostEvent) : State := { s with input := es }

/-- The machine carries out the first `k` events, with the responses in order: one entry for each step, the response
that stands after it. Nothing where a step does not answer a next state. -/
def runTrace : Nat → State → Option (State × List (Option Response))
  | 0, s => some (s, [])
  | k + 1, s =>
    match step s with
    | .next t =>
      match runTrace k t with
      | some (u, rs) => some (u, t.response :: rs)
      | none => none
    | _ => none

/-- Whatever the host does short of reset, the engine stays halted and nothing of its state moves
(spec/60_exceptions.md R107). -/
def State.staysHalted (s : State) : Prop :=
  ∀ (es : List HostEvent) (k : Nat) (t : State) (rs : List (Option Response)), HostEvent.reset ∉ es →
    runTrace k (s.withInput es) = some (t, rs) → t.halted = true ∧ t.stream = s.stream ∧ t.eflags = s.eflags

/-- An outcome with its next state, if it has one, changed by `g`. -/
def mapNext (g : State → State) : Host.Outcome State Fault Refusal → Host.Outcome State Fault Refusal
  | .next s => .next (g s)
  | .fault r => .fault r
  | .refused r => .refused r

/-- One field of a stream: a storage width, a value, and how many of its bits are written (spec/42_read.md R81). -/
structure BitField where
  width : StorageWidth
  value : Value
  bits : Nat
deriving DecidableEq, Repr

/-- The total width of some fields, in bits. -/
def fieldsWidth : List BitField → Nat
  | [] => 0
  | f :: fs => f.bits + fieldsWidth fs

/-- Some fields one after another as one number, the first lowest: the canonical bit order (spec/20_memory.md R30). -/
def fieldsValue : List BitField → Nat
  | [] => 0
  | f :: fs => f.value.toNat % 2 ^ f.bits + 2 ^ f.bits * fieldsValue fs

/-- The host writes a field. -/
def BitField.write (f : BitField) : HostEvent := .command (encode (.writeBits f.width f.bits)) f.value []

/-- The host reads a field's bits; what stands on `WDATA` is ignored (spec/30_encoding.md R50). -/
def BitField.read (f : BitField) : HostEvent := .command (encode (.readBits f.width f.bits)) 0 []

/-- The host rewinds. -/
def rewindEvent : HostEvent := .command (encode .rewind) 0 []

end Sys2Proof.Machine
end

