-- ==== Sys2Proof/Certificates/Slice0/Obligations.lean ====
section
/-! DEFINITION. The statements for the provers: what the numbered rules of spec/ say of the engine. -/

open Sys2Proof Sys2Proof.Machine

/-! ### Encoding (spec/30_encoding.md) -/

/-- Decoding the word of any well-formed command gives the command back, every operand at every value. -/
def Obligations.DecodeOfEncodeIsIdentity : Prop :=
  ∀ i : Instr, i.WellFormed → decode (encode i) = .ok i

/-- A word that decodes is the word of the well-formed command it decodes to: each command has one word. -/
def Obligations.EncodeOfDecodedWord : Prop :=
  ∀ (c : CommandWord) (i : Instr), decode c = .ok i → i.WellFormed ∧ encode i = c

/-- R59: the decoder, with the fields taken from the word as a number (`c[hi:lo]` of R4). An illegal word is one the decoder
rejects; the halted check comes before the decoder. -/
def Obligations.DecoderFollowsItsPseudocode : Prop :=
  (∀ (c : CommandWord) (op sz z n : Nat),
    op = c.toNat / 2 ^ 12 % 2 ^ 4 → sz = c.toNat / 2 ^ 10 % 2 ^ 2 → z = c.toNat / 2 ^ 7 % 2 ^ 3 → n = c.toNat % 2 ^ 7 →
    if z ≠ 0 then ∃ e, decode c = .error e
    else if op = 1 then ∃ w : StorageWidth, w.bits = 8 * 2 ^ sz ∧ decode c = .ok (.writeBits w n)
    else if op = 2 then ∃ w : StorageWidth, w.bits = 8 * 2 ^ sz ∧ decode c = .ok (.readBits w n)
    else if op = 4 ∧ sz = 0 ∧ n = 0 then decode c = .ok .load
    else if op = 5 ∧ sz = 0 ∧ n = 0 then decode c = .ok .store
    else if op = 6 ∧ sz = 0 ∧ n = 0 then decode c = .ok .rewind
    else ∃ e, decode c = .error e) ∧
  (∀ (c : CommandWord) (s : State), s.halted = true → runCommand c s = .next s.refuseHalted)

/-- The classes of words by mask and match, as R53 lists them (its counts are not stated here): every 16-bit word is a
WRITE_BITS word, a READ_BITS word, the LOAD, STORE or REWIND word, or illegal. -/
def Obligations.WordsAreClassifiedByMask : Prop :=
  ∀ c : CommandWord,
    ((∃ w n, decode c = .ok (.writeBits w n)) ↔ c &&& 0xF380 = 0x1000) ∧
    ((∃ w n, decode c = .ok (.readBits w n)) ↔ c &&& 0xF380 = 0x2000) ∧
    (decode c = .ok .load ↔ c = 0x4000) ∧
    (decode c = .ok .store ↔ c = 0x5000) ∧
    (decode c = .ok .rewind ↔ c = 0x6000) ∧
    ((∃ e, decode c = .error e) ↔
      c &&& 0xF380 ≠ 0x1000 ∧ c &&& 0xF380 ≠ 0x2000 ∧ c ≠ 0x4000 ∧ c ≠ 0x5000 ∧ c ≠ 0x6000)

/-- Words of spec/95_test_vectors.md V7, bit by bit `OOOO SS ZZZ NNNNNNN`, and what each stands for. Of the last five V7 says
only that they are illegal: the error names, and that `Z` is named first where a word breaks several rules (`0xFFFF`), are the
model's choice (log entry 8). -/
def Obligations.SampleWordsDecode : Prop :=
  decode 0b0001_11_000_1000000 = .ok (.writeBits .w64 64) ∧
  decode 0b0001_00_000_1111111 = .ok (.writeBits .w8 127) ∧
  decode 0b0010_01_000_0010000 = .ok (.readBits .w16 16) ∧
  decode 0b0100_00_000_0000000 = .ok .load ∧
  decode 0b0101_00_000_0000000 = .ok .store ∧
  decode 0b0110_00_000_0000000 = .ok .rewind ∧
  decode 0b0000_00_000_0000000 = .error .noSuchCommand ∧
  decode 0b0001_00_001_0000000 = .error .reservedField ∧
  decode 0b0100_00_000_0000001 = .error .unusedField ∧
  decode 0b0101_01_000_0000000 = .error .unusedField ∧
  decode 0b1111_11_111_1111111 = .error .reservedField

/-- R58: READ_AS.w is READ_BITS.w w, in its words, in what the assembler makes of it and in what it decodes to. -/
def Obligations.ReadAsIsReadBitsOfTheWidth : Prop :=
  encode (readAs .w8) = 0x2008 ∧ encode (readAs .w16) = 0x2410 ∧
  encode (readAs .w32) = 0x2820 ∧ encode (readAs .w64) = 0x2C40 ∧
  (∀ w : StorageWidth, readAs w = .readBits w w.bits ∧ assemble (.readAs w) = assemble (.readBits w w.bits) ∧
    decode (encode (readAs w)) = .ok (.readBits w w.bits))

/-- The table of R57: the word of each line and what stands on the ports beside it. That a port a command ignores carries 0
or no bytes is the model's choice (log entry 11). -/
def Obligations.AssemblerTableWords : Prop :=
  (∀ (w : StorageWidth) (v n : Nat), v < 2 ^ 64 → n ≤ 127 →
    assemble (.writeBits w v n) =
      some (.command (BitVec.ofNat 16 (0x1000 ||| w.sz.toNat <<< 10 ||| n)) (BitVec.ofNat 64 v) [])) ∧
  (∀ (w : StorageWidth) (n : Nat), n ≤ 127 →
    assemble (.readBits w n) = some (.command (BitVec.ofNat 16 (0x2000 ||| w.sz.toNat <<< 10 ||| n)) 0 [])) ∧
  (∀ bs : List Byte, assemble (.load (bs.map BitVec.toNat)) = some (.command 0x4000 0 bs)) ∧
  assemble .store = some (.command 0x5000 0 []) ∧
  assemble .rewind = some (.command 0x6000 0 [])

/-! ### The step, reset and the status port -/

/-- A presented word that decodes runs its command: the step is `exec` of it on the state with the operands on their ports
and the event off the host's list. -/
def Obligations.StepRunsTheDecodedCommand : Prop :=
  ∀ (s : State) (c : CommandWord) (v : Value) (l : List Byte) (rest : List HostEvent) (i : Instr),
    s.input = .command c v l :: rest → decode c = .ok i →
    step s = exec i { s with wdata := v, lsrc := l, input := rest }

/-- R108: the halted check comes first, for any word, legal or not, and for any command; nothing but the response changes. -/
def Obligations.HaltedEngineRefusesEveryWord : Prop :=
  (∀ (s : State) (c : CommandWord) (v : Value) (l : List Byte) (rest : List HostEvent),
    s.halted = true → s.input = .command c v l :: rest →
    step s = .next { s with
      wdata := v, lsrc := l, input := rest, response := some { status := .errHalted, rdata := none, sdst := none } }) ∧
  (∀ (s : State) (i : Instr), s.halted = true →
    exec i s = .next { s with response := some { status := .errHalted, rdata := none, sdst := none } })

/-- R107: halted exactly when EFLAGS bit 0 or bit 3 is 1; permanent until reset, the stream registers, the buffer and the
flags as they were; the status registers stay readable, and STORE hands out no bytes. -/
def Obligations.HaltedIsPermanentUntilReset : Prop :=
  (∀ s : State, s.halted = true ↔ s.eflags.getLsbD 0 = true ∨ s.eflags.getLsbD 3 = true) ∧
  (∀ s : State, s.halted = true → s.staysHalted) ∧
  (∀ (s : State) (k : Nat) (rest : List HostEvent), s.halted = true → s.input = .readStatus k :: rest →
    step s = .next { s with statusOut := some (s.statusRegister k), input := rest }) ∧
  (∀ (s t : State), s.halted = true → exec .store s = .next t → t.lastSdst = none)

/-- R18 and R121: every register after reset, for every `CAP`; no byte exists; the response ports carry nothing yet. -/
def Obligations.ResetStateValues : Prop :=
  ∀ cap : Capacity, ∀ s : State, (s = State.resetWith cap ∨ s = State.reset) →
    (∀ a, s.mem.read a = none) ∧ s.len = 0 ∧ s.wfill = 0 ∧ s.roff = 0 ∧ s.rcnt = 0 ∧ s.rfill = 0 ∧ s.eflags = 0 ∧
    s.halted = false ∧ s.response = none

/-- R120: asserting reset puts every state register at its reset value, whatever state the engine was in, and is the only
exit from the halted state. -/
def Obligations.ResetInputClearsEverything : Prop :=
  (∀ (s : State) (rest : List HostEvent), s.input = .reset :: rest →
    ∃ t, step s = .next t ∧ (∀ a, t.mem.read a = none) ∧ t.len = 0 ∧ t.wfill = 0 ∧ t.roff = 0 ∧ t.rcnt = 0 ∧ t.rfill = 0 ∧
      t.eflags = 0 ∧ t.halted = false ∧ t.cap = s.cap ∧ t.input = rest) ∧
  (∀ (s t : State), s.halted = true → step s = .next t → t.halted = false → ∃ rest, s.input = .reset :: rest)

/-- R19: the status port, register by register, in any state, halted or not; a status read changes no register. -/
def Obligations.StatusPortReadsTheRegisters : Prop :=
  (∀ s : State, s.statusRegister 0 = s.len ∧ s.statusRegister 1 = s.wfill.toNat ∧ s.statusRegister 2 = s.roff ∧
    s.statusRegister 3 = s.rcnt ∧ s.statusRegister 4 = s.rfill.toNat ∧ s.statusRegister 5 = s.eflags.toNat ∧
    (∀ k, 6 ≤ k → s.statusRegister k = 0)) ∧
  (∀ (cap : Capacity) (k : Nat), (State.resetWith cap).statusRegister k = 0) ∧
  (∀ (s : State) (k : Nat) (rest : List HostEvent), s.input = .readStatus k :: rest →
    step s = .next { s with statusOut := some (s.statusRegister k), input := rest })

/-- `WDATA` is ignored by every command but WRITE_BITS, `LSRC` by every command but LOAD: with anything else on the port the
outcome is the same. -/
def Obligations.UnusedPortsAreIgnored : Prop :=
  (∀ (i : Instr) (s : State) (v : Value), (∀ w n, i ≠ .writeBits w n) →
    exec i { s with wdata := v } = mapNext (fun t => { t with wdata := v }) (exec i s)) ∧
  (∀ (i : Instr) (s : State) (l : List Byte), i ≠ .load →
    exec i { s with lsrc := l } = mapNext (fun t => { t with lsrc := l }) (exec i s))

/-! ### Bit accounting (spec/40_bit_accounting.md) -/

/-- R60, R61 and R62: `bytes_needed` is the exact ceiling, with the values and properties listed; `fill_of`, where the spec
defines it. -/
def Obligations.BitAccountingIsExact : Prop :=
  (∀ n, bytesNeeded n = (n + 7) / 8) ∧
  (∀ n m, bytesNeeded n ≤ m ↔ n ≤ 8 * m) ∧
  (bytesNeeded 0 = 0 ∧ bytesNeeded 1 = 1 ∧ bytesNeeded 7 = 1 ∧ bytesNeeded 8 = 1 ∧ bytesNeeded 9 = 2 ∧ bytesNeeded 65 = 9) ∧
  (bytesNeeded 15 = 2 ∧ bytesNeeded 16 = 2 ∧ bytesNeeded 17 = 3 ∧ bytesNeeded 63 = 8 ∧ bytesNeeded 64 = 8 ∧
    bytesNeeded 71 = 9 ∧ bytesNeeded 72 = 9) ∧
  (∀ n, bytesNeeded n = 0 ↔ n = 0) ∧ (∀ n, 8 * bytesNeeded n ≥ n) ∧ (∀ n, 8 * bytesNeeded n - n ≤ 7) ∧
  (∀ m, bytesNeeded (8 * m) = m) ∧ (∀ m r, 1 ≤ r → r ≤ 7 → bytesNeeded (8 * m + r) = m + 1) ∧
  (∀ m, 1 ≤ m →
    fillOf m = (if m % 8 ≠ 0 then m % 8 else 8) ∧ 1 ≤ fillOf m ∧ fillOf m ≤ 8 ∧ fillOf m = (m - 1) % 8 + 1 ∧
    8 * (bytesNeeded m - 1) + fillOf m = m)

/-- R65: every intermediate number of the two datapaths fits the 72-bit scratch, a write's in 71 bits. -/
def Obligations.ScratchIsWideEnough : Prop :=
  Config.scratchWidth = 72 ∧
  (∀ (s : State) (t : Byte) (n : Nat), n ≤ 64 →
    (s.writeOperand <<< s.writeFill ||| t.toNat) < 2 ^ 71 ∧
    combine s.writeOperand s.writeFill t.toNat n < 2 ^ 71 ∧ s.writeFill + n ≤ 71) ∧
  (∀ (s : State) (n q : Nat), 1 ≤ s.rfill.toNat → n ≤ 64 → s.mem.readNat s.roff (s.readCount n) = some q →
    s.readCount n ≤ 9 ∧ q < 2 ^ 72) ∧
  bytesNeeded 65 = 9

/-! ### The byte-region view (spec/43_region_view.md) -/

/-- R83 to R86: the three operations on every region and all naturals, with validity kept and `none` distinct from the empty
region. -/
def Obligations.RegionViewFailsClosed : Prop :=
  (∀ (r : Region) (off : Nat),
    (off ≤ r.count → r.subspan1 off = some { offset := r.offset + off, count := r.count - off }) ∧
    (r.count < off → r.subspan1 off = none) ∧
    (∀ (r' : Region) (len : Nat), r.ValidFor len → r.subspan1 off = some r' → r'.ValidFor len)) ∧
  (∀ (r : Region) (off cnt : Nat),
    (off + cnt ≤ r.count → r.subspan2 off cnt = some { offset := r.offset + off, count := cnt }) ∧
    (r.count < off + cnt → r.subspan2 off cnt = none) ∧
    (∀ (r' : Region) (len : Nat), r.ValidFor len → r.subspan2 off cnt = some r' → r'.ValidFor len)) ∧
  (∀ r : Region, r.isEmpty = true ↔ r.count = 0) ∧
  (∀ s : State, s.readRegion.isEmpty = true ↔ s.statusRegister 3 = 0) ∧
  (∀ o : Nat, Region.subspan2 { offset := o, count := 0 } 0 0 = some { offset := o, count := 0 } ∧
    Region.subspan2 { offset := o, count := 0 } 0 1 = none ∧ Region.subspan2 { offset := o, count := 0 } 1 0 = none)

/-- A read depends on no buffer byte outside the read region: with any other bytes there its outcome is the same. -/
def Obligations.ReadingIgnoresBytesOutsideTheRegion : Prop :=
  ∀ (w : StorageWidth) (n : Nat) (s : State) (m : Memory),
    (∀ a, s.roff ≤ a → a < s.roff + s.rcnt → m.read a = s.mem.read a) →
    exec (.readBits w n) { s with mem := m } = mapNext (fun t => { t with mem := m }) (exec (.readBits w n) s)

/-! ### The buffer (spec/20_memory.md) -/

/-- `MemRead` of R33 as the sum it is written as, wherever the bytes exist. -/
def Obligations.MemReadIsALittleEndianSum : Prop :=
  ∀ (s : State) (a n : Nat), s.bufferIsDense → a + n ≤ s.len →
    s.mem.readNat a n = some (∑ i ∈ Finset.range n, ((s.mem.read (a + i)).getD 0).toNat <<< (8 * i))

/-- R43, of a run of bytes and the fields inside it: `MemRead` is the bit string's field, shift and mask take a field out,
and a field splits into its low and its high part. -/
def Obligations.MemReadIsAFieldOfTheBitString : Prop :=
  (∀ (m : Memory) (a k v : Nat), m.readNat a k = some v →
    v = m.streamBits (8 * a) (8 * k) ∧
    (∀ h n, h + n ≤ 8 * k → (v >>> h) % 2 ^ n = m.streamBits (8 * a + h) n)) ∧
  (∀ (m : Memory) (p a b : Nat), m.streamBits p (a + b) = m.streamBits p a + 2 ^ a * m.streamBits (p + a) b)

/-- Every step keeps the canonical form of the buffer, in every state that has it. -/
def Obligations.StepKeepsCanonicalMemory : Prop :=
  ∀ s t : State, s.mem.wf → step s = .next t → t.mem.wf

/-! ### WRITE_BITS (spec/41_write.md) -/

/-- R68: a WRITE_BITS of at least one bit that passes every check completes, with this effect. The buffer: byte `i` of
`comb` at `base + i`, every other byte as it was. -/
def Obligations.WriteBitsResult : Prop :=
  ∀ (w : StorageWidth) (n : Nat) (s : State) (f base k tb comb : Nat),
    s.Inv → s.halted = false → n ≤ w.bits → 1 ≤ n →
    f = (if 1 ≤ s.wfill.toNat ∧ s.wfill.toNat ≤ 7 then s.wfill.toNat else 0) →
    tb = (if 1 ≤ s.wfill.toNat ∧ s.wfill.toNat ≤ 7 then ((s.mem.read (s.len - 1)).getD 0).toNat else 0) →
    base = (if 1 ≤ s.wfill.toNat ∧ s.wfill.toNat ≤ 7 then s.len - 1 else s.len) →
    comb = (s.wdata.toNat <<< f ||| tb) % 2 ^ (f + n) → k = bytesNeeded (f + n) →
    (∀ c, s.cap = some c → base + k ≤ c) →
    ∃ t, exec (.writeBits w n) s = .next t ∧
      (∀ i, i < k → t.mem.read (base + i) = some (BitVec.ofNat 8 (comb >>> (8 * i)))) ∧
      (∀ a, a < base ∨ base + k ≤ a → t.mem.read a = s.mem.read a) ∧
      t.len = base + k ∧ t.wfill.toNat = (if (f + n) % 8 = 0 then 8 else (f + n) % 8) ∧
      t.roff = s.roff ∧ t.rcnt = base + k - s.roff ∧
      t.rfill.toNat = (if s.len = 0 then min (f + n) 8 else s.rfill.toNat) ∧
      t.eflags = s.eflags ∧ t.response = some { status := .ok, rdata := none, sdst := none } ∧ t.hostSide = s.hostSide

/-- A WRITE_BITS of 0 bits completes and changes nothing but the response, in every state that is not halted. -/
def Obligations.WriteOfZeroBitsChangesNothing : Prop :=
  ∀ (w : StorageWidth) (s : State), s.halted = false →
    exec (.writeBits w 0) s = .next { s with response := some { status := .ok, rdata := none, sdst := none } }

/-- R69: a first write into an empty buffer establishes the read cursor, and only such a write touches it. -/
def Obligations.FirstWriteEstablishesTheReadCursor : Prop :=
  (∀ (w : StorageWidth) (n : Nat) (s t : State), s.Inv → s.len = 0 → 1 ≤ n →
    exec (.writeBits w n) s = .next t → t.lastStatus = some .ok →
    t.rfill.toNat = min n 8 ∧ t.readPosition = 8 - min n 8) ∧
  (∀ (w : StorageWidth) (n : Nat) (s t : State), s.len ≠ 0 ∨ n = 0 →
    exec (.writeBits w n) s = .next t → t.rfill = s.rfill)

/-- R71: only the low `n` bits of `WDATA` matter, and the storage width only bounds `n`. -/
def Obligations.WriteUsesOnlyTheLowBits : Prop :=
  (∀ v f t n : Nat, t < 2 ^ f → combine v f t n = (v % 2 ^ n) <<< f ||| t) ∧
  (∀ (w : StorageWidth) (n : Nat) (s : State) (v : Value), v.toNat % 2 ^ n = s.wdata.toNat % 2 ^ n →
    exec (.writeBits w n) { s with wdata := v } = mapNext (fun t => { t with wdata := v }) (exec (.writeBits w n) s)) ∧
  (∀ (w w' : StorageWidth) (n : Nat) (s : State), n ≤ w.bits → n ≤ w'.bits →
    exec (.writeBits w n) s = exec (.writeBits w' n) s) ∧
  (∀ cap : Capacity, withinCapacity cap 1 = true →
    ∃ t, exec (.writeBits .w16 3) { State.resetWith cap with wdata := 0xFFFF } = .next t ∧ t.mem = [(0, 0x07)] ∧ t.wfill = 3)

/-- A write is an append to the bit string: the payload grows by `n`, the bits already there stay, the new ones are the low
bits of the operand, and the last byte's bits above the payload are zero (the first two sentences of R72). -/
def Obligations.WriteAppendsToTheBitString : Prop :=
  ∀ (w : StorageWidth) (n : Nat) (s t : State), s.Inv →
    exec (.writeBits w n) s = .next t → t.lastStatus = some .ok →
    t.payloadBits = s.payloadBits + n ∧
    t.mem.streamBits 0 s.payloadBits = s.mem.streamBits 0 s.payloadBits ∧
    t.mem.streamBits s.payloadBits n = s.wdata.toNat % 2 ^ n ∧
    (∀ p, t.payloadBits ≤ p → p < 8 * t.len → t.mem.streamBit p = 0)

/-- R73: removing a full last byte and merging it back gives the same buffer as data, the same length and the same fill. -/
def Obligations.RemergingAFullByteIsAppending : Prop :=
  ∀ (m : Memory) (len v n : Nat) (b : Byte), m.map Prod.fst = List.range len → 1 ≤ len → 1 ≤ n →
    m.read (len - 1) = some b →
    m.writeNat (len - 1) (bytesNeeded (8 + n)) (combine v 8 b.toNat n) = m.writeNat len (bytesNeeded n) (combine v 0 0 n) ∧
    len - 1 + bytesNeeded (8 + n) = len + bytesNeeded n ∧ fillOf (8 + n) = fillOf n

/-- What WRITE_BITS leaves alone whenever it answers a next state, with its store at the address the meaning computes:
`writeBase`, `writeCount n` bytes. The read offset, the flags on success, everything on a fault but the flag. -/
def Obligations.WriteBitsFrame : Prop :=
  ∀ (w : StorageWidth) (n : Nat) (s t : State), exec (.writeBits w n) s = .next t →
    (∀ a, a < s.writeBase ∨ s.writeBase + s.writeCount n ≤ a → t.mem.read a = s.mem.read a) ∧
    t.roff = s.roff ∧ (s.len ≠ 0 → t.rfill = s.rfill) ∧ t.hostSide = s.hostSide ∧
    (t.lastStatus = some .ok → t.eflags = s.eflags) ∧
    (t.lastStatus ≠ some .ok ∨ n = 0 → t.stream = s.stream) ∧
    (∀ j, j ≠ 0 → j ≠ 2 → t.eflags.getLsbD j = s.eflags.getLsbD j)

/-- R74: the faults of WRITE_BITS and nothing else. -/
def Obligations.WriteBitsFaults : Prop :=
  (∀ (w : StorageWidth) (n : Nat) (s : State), s.halted = false → w.bits < n →
    ∃ t, exec (.writeBits w n) s = .next t ∧ t.stream = s.stream ∧ t.eflags = s.eflags ||| 1 ∧ t.halted = true ∧
      t.response = some { status := .errContract, rdata := none, sdst := none }) ∧
  (∀ (w : StorageWidth) (n c : Nat) (s : State), s.halted = false → n ≤ w.bits → 1 ≤ n → s.cap = some c →
    c < s.writeBase + s.writeCount n →
    ∃ t, exec (.writeBits w n) s = .next t ∧ t.stream = s.stream ∧ t.eflags = s.eflags ||| 4 ∧ t.halted = false ∧
      t.response = some { status := .errCapacity, rdata := none, sdst := none }) ∧
  (∀ (w : StorageWidth) (n : Nat) (s t : State), exec (.writeBits w n) s = .next t →
    t.lastStatus ≠ some .errBounds ∧ (t.lastStatus = some .ok → t.eflags = s.eflags))

/-! ### READ_BITS and READ_AS (spec/42_read.md) -/

/-- R76: a READ_BITS that passes every check completes, with this effect; the buffer, the write cursor and the flags stay. -/
def Obligations.ReadBitsResult : Prop :=
  ∀ (w : StorageWidth) (n : Nat) (s : State) (h k r : Nat),
    s.Inv → s.halted = false → n ≤ w.bits → s.rfill ≠ 0 →
    h = 8 - s.rfill.toNat → k = bytesNeeded (n + h) → k ≤ s.rcnt → r = (h + n) % 8 →
    ∃ q t, s.mem.readNat s.roff k = some q ∧ exec (.readBits w n) s = .next t ∧
      t.roff = s.roff + (if r = 0 then k else k - 1) ∧ t.rcnt = s.rcnt - (if r = 0 then k else k - 1) ∧
      t.rfill.toNat = (if r = 0 then 8 else 8 - r) ∧
      t.response = some { status := .ok, rdata := some (BitVec.ofNat 64 ((q >>> h) % 2 ^ n)), sdst := none } ∧
      t.mem = s.mem ∧ t.len = s.len ∧ t.wfill = s.wfill ∧ t.eflags = s.eflags ∧ t.hostSide = s.hostSide

/-- A read returns the field of the bit string at the read position and moves past it; it succeeds exactly when the bits it
asks for lie inside the buffer's bytes (R80 but for its last two sentences). -/
def Obligations.ReadReturnsTheNextField : Prop :=
  ∀ (w : StorageWidth) (n : Nat) (s : State), s.Inv → s.halted = false → n ≤ w.bits → s.rfill ≠ 0 →
    (s.readPosition + n ≤ 8 * s.len →
      ∃ t, exec (.readBits w n) s = .next t ∧ t.lastStatus = some .ok ∧
        t.lastRdata = some (BitVec.ofNat 64 (s.mem.streamBits s.readPosition n)) ∧
        t.readPosition = s.readPosition + n ∧ t.mem = s.mem ∧ t.len = s.len) ∧
    (8 * s.len < s.readPosition + n →
      ∃ t, exec (.readBits w n) s = .next t ∧ t.lastStatus = some .errBounds ∧ t.stream = s.stream)

/-- R78: no bit of `RDATA` at or above `n` is set, whatever the buffer holds; the storage width does not change the result;
the buffer keeps its bytes. -/
def Obligations.ReadValueHasNoHighBits : Prop :=
  (∀ (w : StorageWidth) (n : Nat) (s t : State) (v : Value), exec (.readBits w n) s = .next t → t.lastRdata = some v →
    v.toNat < 2 ^ n ∧ (∀ i, n ≤ i → v.getLsbD i = false) ∧ t.mem = s.mem) ∧
  (∀ (w w' : StorageWidth) (n : Nat) (s : State), n ≤ w.bits → n ≤ w'.bits →
    exec (.readBits w n) s = exec (.readBits w' n) s)

/-- A READ_BITS of 0 bits on an established read cursor returns 0 and changes nothing; on one never established it is a
contract violation (the first three cases of R79). -/
def Obligations.ReadOfZeroBits : Prop :=
  (∀ (w : StorageWidth) (s : State), s.Inv → s.halted = false → s.rfill ≠ 0 →
    exec (.readBits w 0) s = .next { s with response := some { status := .ok, rdata := some 0, sdst := none } }) ∧
  (∀ (w : StorageWidth) (s : State), s.halted = false → s.rfill = 0 →
    ∃ t, exec (.readBits w 0) s = .next t ∧ t.lastStatus = some .errContract ∧ t.stream = s.stream ∧ t.halted = true)

/-- READ_AS at a byte-aligned read cursor returns the next bytes assembled little-endian and passes over them. -/
def Obligations.AlignedReadAsTakesWholeBytes : Prop :=
  ∀ (w : StorageWidth) (s : State), s.Inv → s.halted = false → s.rfill = 8 → w.bits / 8 ≤ s.rcnt →
    ∃ q t, s.mem.readNat s.roff (w.bits / 8) = some q ∧ exec (readAs w) s = .next t ∧
      t.response = some { status := .ok, rdata := some (BitVec.ofNat 64 q), sdst := none } ∧
      t.roff = s.roff + w.bits / 8 ∧ t.rcnt = s.rcnt - w.bits / 8 ∧ t.rfill = 8

/-- A read neither uses nor changes the write cursor: with any other `WFILL` and `LEN` its outcome is the same (R17). -/
def Obligations.ReadingIgnoresTheWriteCursor : Prop :=
  ∀ (w : StorageWidth) (n len : Nat) (wfill : Nibble) (s : State),
    exec (.readBits w n) { s with wfill := wfill, len := len } =
      mapNext (fun t => { t with wfill := wfill, len := len }) (exec (.readBits w n) s)

/-- What READ_BITS leaves alone whenever it answers a next state: all of memory, the write cursor, and on a fault the whole
stream; of the flags it can touch bits 0 and 1 only. -/
def Obligations.ReadBitsFrame : Prop :=
  ∀ (w : StorageWidth) (n : Nat) (s t : State), exec (.readBits w n) s = .next t →
    (∀ a, t.mem.read a = s.mem.read a) ∧ t.len = s.len ∧ t.wfill = s.wfill ∧ t.hostSide = s.hostSide ∧
    (t.lastStatus = some .ok → t.eflags = s.eflags) ∧ (t.lastStatus ≠ some .ok → t.stream = s.stream) ∧
    (∀ j, 2 ≤ j → t.eflags.getLsbD j = s.eflags.getLsbD j)

/-- R98: the faults of READ_BITS and nothing else. -/
def Obligations.ReadBitsFaults : Prop :=
  (∀ (w : StorageWidth) (n : Nat) (s : State), s.halted = false → w.bits < n ∨ s.rfill = 0 →
    ∃ t, exec (.readBits w n) s = .next t ∧ t.stream = s.stream ∧ t.eflags = s.eflags ||| 1 ∧ t.halted = true ∧
      t.response = some { status := .errContract, rdata := none, sdst := none }) ∧
  (∀ (w : StorageWidth) (n : Nat) (s : State), s.halted = false → n ≤ w.bits → s.rfill ≠ 0 →
    s.rcnt < bytesNeeded (n + (8 - s.rfill.toNat)) →
    ∃ t, exec (.readBits w n) s = .next t ∧ t.stream = s.stream ∧ t.eflags = s.eflags ||| 2 ∧ t.halted = false ∧
      t.response = some { status := .errBounds, rdata := none, sdst := none }) ∧
  (∀ (w : StorageWidth) (n : Nat) (s t : State), exec (.readBits w n) s = .next t →
    t.lastStatus ≠ some .errCapacity ∧ (t.lastStatus = some .ok → t.eflags = s.eflags))

/-! ### LOAD, STORE, REWIND (spec/44_bulk_and_cursor.md) -/

/-- R89: LOAD replaces the buffer wholesale by the bytes on `LSRC` and puts both cursors at it. Both fills are 0 after an
empty LOAD. -/
def Obligations.LoadResult : Prop :=
  ∀ s : State, s.halted = false → (∀ c, s.cap = some c → s.lsrc.length ≤ c) →
    ∃ t, exec .load s = .next t ∧ (∀ a, t.mem.read a = s.lsrc[a]?) ∧ t.mem.wf ∧ t.len = s.lsrc.length ∧
      t.roff = 0 ∧ t.rcnt = s.lsrc.length ∧
      t.rfill = (if 1 ≤ s.lsrc.length then 8 else 0) ∧ t.wfill = (if 1 ≤ s.lsrc.length then 8 else 0) ∧
      t.eflags = s.eflags ∧ t.hostSide = s.hostSide ∧
      t.response = some { status := .ok, rdata := none, sdst := none }

/-- R92: STORE hands out the whole buffer from index 0 and changes nothing: `LEN` bytes, the `i`-th the one at index `i`, a
partial last byte with zeros above its fill; it can be repeated with the same result. A halted engine refuses it. -/
def Obligations.StoreResult : Prop :=
  (∀ s : State, s.bufferIsDense → s.halted = false →
    ∃ (bs : List Byte) (t : State), exec .store s = .next t ∧
      t = { s with response := some { status := .ok, rdata := none, sdst := some bs } } ∧
      bs.length = s.len ∧ (∀ i, i < s.len → bs[i]? = s.mem.read i) ∧ exec .store t = .next t ∧
      (s.Inv → s.trailingIsPartial → ∃ b, bs.getLast? = some b ∧ b.toNat < 2 ^ s.wfill.toNat)) ∧
  (∀ s : State, s.halted = true →
    exec .store s = .next { s with response := some { status := .errHalted, rdata := none, sdst := none } })

/-- R93: REWIND puts the read cursor at the start and changes nothing else; a halted engine refuses it. -/
def Obligations.RewindResult : Prop :=
  (∀ s : State, s.halted = false →
    exec .rewind s = .next { s with
      roff := 0, rcnt := s.len, rfill := if 1 ≤ s.len then 8 else 0,
      response := some { status := .ok, rdata := none, sdst := none } }) ∧
  (∀ s t : State, s.halted = false → 1 ≤ s.len → exec .rewind s = .next t → t.readPosition = 0) ∧
  (∀ s : State, s.halted = true →
    exec .rewind s = .next { s with response := some { status := .errHalted, rdata := none, sdst := none } })

/-- What LOAD, STORE and REWIND leave alone whenever they answer a next state: STORE and REWIND every byte of memory, the
length and the write cursor; STORE every stream register; all three the flags on success and the host's side. -/
def Obligations.BulkCommandsFrame : Prop :=
  (∀ s t : State, exec .load s = .next t →
    t.hostSide = s.hostSide ∧ (t.lastStatus ≠ some .ok → t.stream = s.stream) ∧
    (∀ j, j ≠ 2 → t.eflags.getLsbD j = s.eflags.getLsbD j) ∧
    (∀ a, s.lsrc.length ≤ a → t.lastStatus = some .ok → t.mem.read a = none)) ∧
  (∀ s t : State, exec .store s = .next t → t.stream = s.stream ∧ t.eflags = s.eflags ∧ t.hostSide = s.hostSide) ∧
  (∀ s t : State, exec .rewind s = .next t →
    (∀ a, t.mem.read a = s.mem.read a) ∧ t.len = s.len ∧ t.wfill = s.wfill ∧ t.eflags = s.eflags ∧
    t.hostSide = s.hostSide)

/-- R96: LOAD can raise a capacity overflow only, STORE and REWIND nothing, none sets a flag on success, and all three are
refused in the halted state. -/
def Obligations.BulkCommandsFaults : Prop :=
  (∀ (s : State) (c : Nat), s.halted = false → s.cap = some c → c < s.lsrc.length →
    ∃ t, exec .load s = .next t ∧ t.stream = s.stream ∧ t.eflags = s.eflags ||| 4 ∧ t.halted = false ∧
      t.response = some { status := .errCapacity, rdata := none, sdst := none }) ∧
  (∀ s t : State, exec .load s = .next t → s.halted = false →
    t.lastStatus = some .ok ∧ t.eflags = s.eflags ∨ t.lastStatus = some .errCapacity) ∧
  (∀ (i : Instr) (s t : State), i = .store ∨ i = .rewind → exec i s = .next t →
    t.eflags = s.eflags ∧ (s.halted = false → t.lastStatus = some .ok)) ∧
  (∀ (i : Instr) (s : State), i = .load ∨ i = .store ∨ i = .rewind → s.halted = true →
    ∃ t, exec i s = .next t ∧ t.lastStatus = some .errHalted ∧ t.stream = s.stream ∧ t.eflags = s.eflags)

/-- What one engine stores another loads: the same buffer as data, from the start, byte-aligned whatever the first engine's
fill was, the bits above the first engine's payload zero. -/
def Obligations.StoreThenLoadMovesTheBuffer : Prop :=
  ∀ (a b : State) (bs : List Byte) (a' : State), a.Inv → a.halted = false →
    exec .store a = .next a' → a'.lastSdst = some bs →
    b.halted = false → b.lsrc = bs → withinCapacity b.cap bs.length = true →
    ∃ b', exec .load b = .next b' ∧ b'.mem = a.mem ∧ b'.len = a.len ∧ b'.lastStatus = some .ok ∧
      (1 ≤ a.len → b'.readPosition = 0 ∧ b'.wfill = 8) ∧
      (∀ p n, b'.mem.streamBits p n = a.mem.streamBits p n) ∧
      (∀ p, a.payloadBits ≤ p → p < 8 * b'.len → b'.mem.streamBit p = 0)

/-- A typed element laid out least significant byte first, loaded, and read with its own width at the start comes back
(the host's conversion is R31's). -/
def Obligations.LoadedElementReadsBack : Prop :=
  ∀ (w : StorageWidth) (v : Nat) (s t : State), s.halted = false →
    s.lsrc = (List.range (w.bits / 8)).map (fun i => BitVec.ofNat 8 (v >>> (8 * i))) →
    withinCapacity s.cap (w.bits / 8) = true → exec .load s = .next t →
    ∃ u, exec (readAs w) t = .next u ∧
      u.response = some { status := .ok, rdata := some (BitVec.ofNat 64 (v % 2 ^ w.bits)), sdst := none } ∧ u.rcnt = 0

/-! ### Faults (spec/60_exceptions.md) -/

/-- R101: the code of each status, the flag each fault sets, and which faults halt. -/
def Obligations.StatusCodeTable : Prop :=
  (Status.code .ok = 0 ∧ Status.code .errContract = 1 ∧ Status.code .errBounds = 2 ∧ Status.code .errCapacity = 3 ∧
    Status.code .errIllegal = 4 ∧ Status.code .errHalted = 5) ∧
  (∀ (c : CommandWord) (s t : State), runCommand c s = .next t →
    ∃ st, t.lastStatus = some st ∧ (Status.code st).toNat ≤ 5) ∧
  (∀ (c : CommandWord) (s t : State), s.halted = false → runCommand c s = .next t →
    (t.lastStatus = some .ok → t.eflags = s.eflags) ∧
    (t.lastStatus = some .errContract → t.eflags = s.eflags ||| 1 ∧ t.halted = true) ∧
    (t.lastStatus = some .errBounds → t.eflags = s.eflags ||| 2 ∧ t.halted = false) ∧
    (t.lastStatus = some .errCapacity → t.eflags = s.eflags ||| 4 ∧ t.halted = false) ∧
    (t.lastStatus = some .errIllegal → t.eflags = s.eflags ||| 8 ∧ t.halted = true)) ∧
  (∀ (c : CommandWord) (s t : State), runCommand c s = .next t →
    (t.lastStatus = some .errHalted ↔ s.halted = true) ∧ (t.lastStatus = some .errHalted → t.eflags = s.eflags))

/-- R102: the causes of a contract violation, all of them, and its effect. -/
def Obligations.ContractViolationCauses : Prop :=
  ∀ (c : CommandWord) (s t : State), runCommand c s = .next t →
    (t.lastStatus = some .errContract ↔ s.halted = false ∧
      ((∃ w n, decode c = .ok (.writeBits w n) ∧ w.bits < n) ∨
       (∃ w n, decode c = .ok (.readBits w n) ∧ (w.bits < n ∨ s.rfill = 0)))) ∧
    (t.lastStatus = some .errContract →
      t.stream = s.stream ∧ t.eflags = s.eflags ||| 1 ∧ t.lastRdata = none ∧ t.halted = true ∧ t.staysHalted)

/-- R103: the cause of a bounds violation and its effect; the engine is not halted and the next command executes normally
from the unchanged state. -/
def Obligations.BoundsViolationCause : Prop :=
  ∀ (c : CommandWord) (s t : State), runCommand c s = .next t →
    (t.lastStatus = some .errBounds ↔ s.halted = false ∧
      ∃ w n, decode c = .ok (.readBits w n) ∧ n ≤ w.bits ∧ s.rfill ≠ 0 ∧
        s.rcnt < bytesNeeded (n + (8 - s.rfill.toNat))) ∧
    (t.lastStatus = some .errBounds →
      t.stream = s.stream ∧ t.eflags = s.eflags ||| 2 ∧ t.lastRdata = none ∧ t.halted = false ∧ t.hostSide = s.hostSide)

/-- R104: the causes of a capacity overflow and its effect; with `CAP` unbounded it never occurs. -/
def Obligations.CapacityOverflowCauses : Prop :=
  ∀ (c : CommandWord) (s t : State), runCommand c s = .next t →
    (t.lastStatus = some .errCapacity ↔ s.halted = false ∧ ∃ cap, s.cap = some cap ∧
      ((∃ w n, decode c = .ok (.writeBits w n) ∧ n ≤ w.bits ∧ 1 ≤ n ∧ cap < s.writeBase + s.writeCount n) ∨
       (decode c = .ok .load ∧ cap < s.lsrc.length))) ∧
    (t.lastStatus = some .errCapacity →
      t.stream = s.stream ∧ t.eflags = s.eflags ||| 4 ∧ t.halted = false) ∧
    (s.cap = none → t.lastStatus ≠ some .errCapacity)

/-- R105: an illegal word presented to an engine that is not halted. -/
def Obligations.IllegalWordHaltsTheEngine : Prop :=
  ∀ (s : State) (c : CommandWord) (v : Value) (l : List Byte) (rest : List HostEvent),
    s.halted = false → s.input = .command c v l :: rest → (∀ i, decode c ≠ .ok i) →
    ∃ t, step s = .next t ∧ t.stream = s.stream ∧ t.eflags = s.eflags ||| 8 ∧
      t.response = some { status := .errIllegal, rdata := none, sdst := none } ∧ t.halted = true ∧ t.staysHalted

/-- R106 and R15: a fault changes its flag and the response, nothing else; flags are sticky, only reset clears one, and only
the command that faults sets one. -/
def Obligations.FaultEntryIsPrecise : Prop :=
  (∀ (c : CommandWord) (s t : State) (f : FaultClass), runCommand c s = .next t → t.lastStatus = some f.status →
    t.stream = s.stream ∧ t.hostSide = s.hostSide ∧
    (∀ j, t.eflags.getLsbD j = (s.eflags.getLsbD j || decide (j = f.flagBit))) ∧
    t.lastRdata = none ∧ t.lastSdst = none) ∧
  (∀ (s t : State) (j : Nat), step s = .next t → s.eflags.getLsbD j = true → t.eflags.getLsbD j = false →
    ∃ rest, s.input = .reset :: rest) ∧
  (∀ (s t : State) (j : Nat), step s = .next t → s.eflags.getLsbD j = false → t.eflags.getLsbD j = true →
    ∃ c v l rest f, s.input = .command c v l :: rest ∧ t.lastStatus = some (FaultClass.status f) ∧ j = f.flagBit) ∧
  (FaultClass.flagBit .contractViolation = 0 ∧ FaultClass.flagBit .boundsViolation = 1 ∧
    FaultClass.flagBit .capacityOverflow = 2 ∧ FaultClass.flagBit .illegalCommand = 3) ∧
  (∀ s : State, s.halted = true ↔ s.eflags.getLsbD 0 = true ∨ s.eflags.getLsbD 3 = true)

/-- R109: `RDATA` only in an OK READ_BITS, `SDST` only in an OK STORE. -/
def Obligations.DataOnlyInAnOkResponse : Prop :=
  ∀ (c : CommandWord) (s t : State), runCommand c s = .next t →
    ((∃ v, t.lastRdata = some v) ↔ t.lastStatus = some .ok ∧ ∃ w n, decode c = .ok (.readBits w n)) ∧
    ((∃ bs, t.lastSdst = some bs) ↔ t.lastStatus = some .ok ∧ decode c = .ok .store)

/-- R110: exactly one response, chosen in this order, and only the chosen fault's flag set. -/
def Obligations.OneResponseByPriority : Prop :=
  ∀ (c : CommandWord) (s : State), s.Inv →
    ∃ t st, runCommand c s = .next t ∧ t.lastStatus = some st ∧
      st = (if s.halted then .errHalted else
        match decode c with
        | .error _ => .errIllegal
        | .ok (.writeBits w n) =>
          if w.bits < n then .errContract else if n = 0 then .ok
          else if withinCapacity s.cap (s.writeBase + s.writeCount n) then .ok else .errCapacity
        | .ok (.readBits w n) =>
          if w.bits < n then .errContract else if s.rfill = 0 then .errContract
          else if s.rcnt < s.readCount n then .errBounds else .ok
        | .ok .load => if withinCapacity s.cap s.lsrc.length then .ok else .errCapacity
        | .ok .store => .ok
        | .ok .rewind => .ok) ∧
      t.eflags = s.eflags ||| (match st with
        | .errContract => 1
        | .errBounds => 2
        | .errCapacity => 4
        | .errIllegal => 8
        | .ok => 0
        | .errHalted => 0)

/-! ### The whole machine (spec/10_state.md) -/

/-- R11: which commands change the buffer, and how; no command but LOAD makes `LEN` smaller; a read only narrows the window
from the front. -/
def Obligations.OnlyWritesAndLoadsChangeTheBuffer : Prop :=
  (∀ (i : Instr) (s t : State), exec i s = .next t → (i ≠ .load → s.len ≤ t.len) ∧ (s.bufferIsDense → t.bufferIsDense)) ∧
  (∀ (w : StorageWidth) (n : Nat) (s t : State), exec (.writeBits w n) s = .next t →
    (∀ a, a + 1 < s.len → t.mem.read a = s.mem.read a) ∧
    (¬ s.trailingIsPartial → ∀ a, a < s.len → t.mem.read a = s.mem.read a)) ∧
  (∀ s t : State, exec .load s = .next t → t.lastStatus = some .ok → ∀ a, t.mem.read a = s.lsrc[a]?) ∧
  (∀ (i : Instr) (s t : State), (∃ w n, i = .readBits w n) ∨ i = .store ∨ i = .rewind → exec i s = .next t →
    t.mem = s.mem ∧ t.len = s.len) ∧
  (∀ (w : StorageWidth) (n : Nat) (s t : State), exec (.readBits w n) s = .next t →
    s.roff ≤ t.roff ∧ t.rcnt ≤ s.rcnt ∧ t.roff + t.rcnt = s.roff + s.rcnt)

/-- The invariants of R16 hold after reset, for every `CAP`. -/
def Obligations.InvariantsHoldAfterReset : Prop :=
  State.reset.Inv ∧ ∀ cap : Capacity, (State.resetWith cap).Inv

/-- The invariants of R16 are kept by every step, of every state that has them, reachable or not, whatever the host does. -/
def Obligations.StepKeepsTheInvariants : Prop :=
  ∀ s t : State, s.Inv → step s = .next t → t.Inv

/-- R16: in every state reachable from reset by any sequence of commands, faulting or not, items a to f hold. -/
def Obligations.InvariantsHoldInEveryReachableState : Prop :=
  ∀ (cap : Capacity) (es : List HostEvent) (k : Nat),
    ∃ t rs, runTrace k ((State.resetWith cap).withInput es) = some (t, rs) ∧
      t.roff + t.rcnt = t.len ∧
      ((t.len = 0 ↔ t.wfill = 0) ∧ (t.len = 0 ↔ t.rfill = 0) ∧
        (1 ≤ t.len → 1 ≤ t.wfill.toNat ∧ t.wfill.toNat ≤ 8 ∧ 1 ≤ t.rfill.toNat ∧ t.rfill.toNat ≤ 8)) ∧
      (∀ c, t.cap = some c → t.len ≤ c) ∧ t.cap = cap ∧ t.roff ≤ t.len ∧
      (1 ≤ t.wfill.toNat → t.wfill.toNat ≤ 7 →
        ∃ b, t.mem.read (t.len - 1) = some b ∧ b.toNat < 2 ^ t.wfill.toNat) ∧
      (t.rcnt = 0 → 1 ≤ t.len → t.rfill = 8)

/-- Every step of a state with the invariants answers a next state: the machine is never stuck and never stops. -/
def Obligations.StepAlwaysAnswers : Prop :=
  ∀ s : State, s.Inv → ∃ t, step s = .next t

/-! ### Whole streams (spec/41_write.md R72, spec/42_read.md R81) -/

/-- From reset, writing any fields in order leaves a buffer that is their concatenation in canonical bit order, padded with
zeros to a whole byte. -/
def Obligations.WritesConcatenateTheFields : Prop :=
  ∀ (cap : Capacity) (fs : List BitField), (∀ f ∈ fs, f.bits ≤ f.width.bits) →
    withinCapacity cap (bytesNeeded (fieldsWidth fs)) = true →
    ∃ t rs, runTrace fs.length ((State.resetWith cap).withInput (fs.map BitField.write)) = some (t, rs) ∧
      t.noFaultRecorded ∧ t.len = bytesNeeded (fieldsWidth fs) ∧ t.payloadBits = fieldsWidth fs ∧
      t.mem.streamBits 0 (8 * t.len) = fieldsValue fs

/-- R81 with REWIND: writing any fields from reset, rewinding, and reading with the same widths in the same order returns
every field, with every command OK, and ends with the read position at the end of the payload. At least one field must have
a bit: with none the buffer stays empty and a read of 0 bits is a contract violation, which R81 does not say (log entry 10). -/
def Obligations.RoundTripAfterRewind : Prop :=
  ∀ (cap : Capacity) (fs : List BitField), (∀ f ∈ fs, f.bits ≤ f.width.bits) → 1 ≤ fieldsWidth fs →
    withinCapacity cap (bytesNeeded (fieldsWidth fs)) = true →
    ∃ t rs, runTrace (fs.length + 1 + fs.length)
        ((State.resetWith cap).withInput (fs.map BitField.write ++ rewindEvent :: fs.map BitField.read)) = some (t, rs) ∧
      t.noFaultRecorded ∧ (∀ r ∈ rs, r.map Response.status = some .ok) ∧
      rs.drop (fs.length + 1) = fs.map (fun f =>
        some { status := .ok, rdata := some (BitVec.ofNat 64 (f.value.toNat % 2 ^ f.bits)), sdst := none }) ∧
      t.readPosition = fieldsWidth fs ∧ t.roff = fieldsWidth fs / 8 ∧
      t.roff + (if t.rfill.toNat < 8 then 1 else 0) = t.len

/-- R81 without REWIND: the same where the first field with a bit has at least 8, so that the first write leaves the read
cursor at the start. -/
def Obligations.RoundTripOfAWideFirstField : Prop :=
  ∀ (cap : Capacity) (zs fs : List BitField) (g : BitField), (∀ f ∈ zs, f.bits = 0) → 8 ≤ g.bits →
    (∀ f ∈ g :: fs, f.bits ≤ f.width.bits) → withinCapacity cap (bytesNeeded (fieldsWidth (g :: fs))) = true →
    ∃ t rs, runTrace ((zs ++ g :: fs).length + (zs ++ g :: fs).length)
        ((State.resetWith cap).withInput ((zs ++ g :: fs).map BitField.write ++ (zs ++ g :: fs).map BitField.read)) = some (t, rs) ∧
      t.noFaultRecorded ∧
      rs.drop (zs ++ g :: fs).length = (zs ++ g :: fs).map (fun f =>
        some { status := .ok, rdata := some (BitVec.ofNat 64 (f.value.toNat % 2 ^ f.bits)), sdst := none }) ∧
      t.readPosition = t.payloadBits
end

