-- ==== Sys2Proof/Laws/Accounting.lean ====
section
/-! SUPPORT. What the bit accounting of spec/40_bit_accounting.md gives: bounds and the shapes the two datapaths use. -/

namespace Sys2Proof.Machine

theorem bytesNeeded_le_iff (n m : Nat) : bytesNeeded n ≤ m ↔ n ≤ 8 * m := by
  unfold bytesNeeded; omega

theorem le_eight_mul_bytesNeeded (n : Nat) : n ≤ 8 * bytesNeeded n := by
  unfold bytesNeeded; omega

theorem eight_mul_bytesNeeded_lt (n : Nat) : 8 * bytesNeeded n < n + 8 := by
  unfold bytesNeeded; omega

theorem bytesNeeded_pos (n : Nat) (h : 1 ≤ n) : 1 ≤ bytesNeeded n := by
  unfold bytesNeeded; omega

theorem bytesNeeded_mono {a b : Nat} (h : a ≤ b) : bytesNeeded a ≤ bytesNeeded b := by
  unfold bytesNeeded; omega

theorem bytesNeeded_eight_mul_add (a x : Nat) : bytesNeeded (8 * a + x) = a + bytesNeeded x := by
  unfold bytesNeeded; omega

theorem fillOf_pos (m : Nat) : 1 ≤ fillOf m := by
  unfold fillOf; split <;> omega

theorem fillOf_le (m : Nat) : fillOf m ≤ 8 := by
  unfold fillOf; split <;> omega

@[simp] theorem toNat_fillOf (m : Nat) : (BitVec.ofNat 4 (fillOf m)).toNat = fillOf m := by
  have := fillOf_le m
  rw [BitVec.toNat_ofNat]; omega

theorem fillOf_spec (m : Nat) (h : 1 ≤ m) : 8 * (bytesNeeded m - 1) + fillOf m = m := by
  unfold bytesNeeded fillOf; split <;> omega

theorem StorageWidth.bits_le (w : Sys2Proof.StorageWidth) : w.bits ≤ 64 := by
  cases w <;> decide

theorem StorageWidth.le_bits (w : Sys2Proof.StorageWidth) : 8 ≤ w.bits := by
  cases w <;> decide

theorem withinCapacity_mono {cap : Sys2Proof.Capacity} {a b : Nat} (h : a ≤ b) (hb : withinCapacity cap b = true) :
    withinCapacity cap a = true := by
  cases cap with
  | none => rfl
  | some c => simp only [withinCapacity, decide_eq_true_eq] at hb ⊢; omega

end Sys2Proof.Machine
end

