-- ==== Sys2Proof/Laws/Memory.lean ====
section
/-! SUPPORT. The laws of the buffer: a byte read after a write, runs of bytes, the canonical form, and buffers that hold
exactly the indices below a length. -/

namespace Sys2Proof.Machine

/-! ### One byte -/

@[simp] theorem Memory.read_nil (a : Nat) : Memory.read [] a = none := rfl

@[simp] theorem Memory.read_write_same (m : Memory) (a : Nat) (b : Byte) : (m.write a b).read a = some b := by
  induction m with
  | nil => simp [Memory.write, Memory.read]
  | cons c m ih =>
    obtain ⟨k, c⟩ := c
    simp only [Memory.write]
    split
    · simp [Memory.read]
    · split
      · simp [Memory.read]
      · rw [Memory.read, if_neg (by omega), ih]

theorem Memory.read_write_of_ne (m : Memory) {a x : Nat} (b : Byte) (h : x ≠ a) : (m.write a b).read x = m.read x := by
  induction m with
  | nil => simp [Memory.write, Memory.read]; omega
  | cons c m ih =>
    obtain ⟨k, c⟩ := c
    simp only [Memory.write]
    split
    · rw [Memory.read, if_neg (by omega)]
    · split
      · next _ hk => subst hk; simp only [Memory.read]; rw [if_neg (by omega), if_neg (by omega)]
      · simp only [Memory.read, ih]

/-- What one byte of a written buffer reads as, everywhere. -/
theorem Memory.read_write (m : Memory) (a x : Nat) (b : Byte) :
    (m.write a b).read x = if x = a then some b else m.read x := by
  split
  · next h => subst h; simp
  · next h => exact m.read_write_of_ne b h

/-- An index holds a byte exactly when it is listed. -/
theorem Memory.read_isSome_iff (m : Memory) (a : Nat) : (m.read a).isSome = true ↔ a ∈ m.map Prod.fst := by
  induction m with
  | nil => simp
  | cons c m ih =>
    obtain ⟨k, c⟩ := c
    by_cases h : k = a
    · simp [Memory.read, h]
    · simp [Memory.read, h, ih, Ne.symm h]

/-! ### The canonical form -/

theorem Memory.mem_write_fst {m : Memory} {a : Nat} {b : Byte} {x : Host.Cell} (h : x ∈ m.write a b) :
    x.1 = a ∨ x ∈ m := by
  induction m with
  | nil => simp [Memory.write] at h; simp [h]
  | cons c m ih =>
    obtain ⟨k, c⟩ := c
    simp only [Memory.write] at h
    split at h
    · rcases List.mem_cons.1 h with rfl | h
      · exact .inl rfl
      · exact .inr h
    · split at h
      · rcases List.mem_cons.1 h with rfl | h
        · exact .inl rfl
        · exact .inr (List.mem_cons_of_mem _ h)
      · rcases List.mem_cons.1 h with rfl | h
        · exact .inr (List.mem_cons_self ..)
        · exact (ih h).imp_right (List.mem_cons_of_mem _)

/-- A write keeps the canonical form. -/
theorem Memory.wf_write {m : Memory} (a : Nat) (b : Byte) (h : m.wf) : (m.write a b).wf := by
  induction m with
  | nil => simp [Memory.write, Memory.wf]
  | cons c m ih =>
    obtain ⟨k, c⟩ := c
    obtain ⟨hk, hm⟩ := List.pairwise_cons.1 h
    simp only [Memory.write]
    split
    · next hlt =>
      refine List.pairwise_cons.2 ⟨fun x hx => ?_, h⟩
      rcases List.mem_cons.1 hx with rfl | hx
      · exact hlt
      · exact Nat.lt_trans hlt (hk x hx)
    · split
      · next _ heq => subst heq; exact List.pairwise_cons.2 ⟨hk, hm⟩
      · refine List.pairwise_cons.2 ⟨fun x hx => ?_, ih hm⟩
        rcases Memory.mem_write_fst hx with h1 | h1
        · change k < x.1; omega
        · exact hk x h1

/-- `MemWrite` keeps the canonical form. -/
theorem Memory.wf_writeNat {m : Memory} (a n v : Nat) (h : m.wf) : (m.writeNat a n v).wf := by
  induction n generalizing m a v with
  | zero => exact h
  | succ n ih => exact ih (a + 1) (v / 256) (Memory.wf_write a _ h)

/-- A loaded buffer lists exactly the indices of its bytes, in order. -/
theorem Memory.ofBytes_indices (a : Nat) (bs : List Byte) :
    (Memory.ofBytes a bs).map Prod.fst = List.range' a bs.length := by
  induction bs generalizing a with
  | nil => rfl
  | cons b bs ih => simp [Memory.ofBytes, ih, List.range'_succ]

/-- A loaded buffer has the canonical form. -/
theorem Memory.wf_ofBytes (a : Nat) (bs : List Byte) : (Memory.ofBytes a bs).wf := by
  have h : ((Memory.ofBytes a bs).map Prod.fst).Pairwise (· < ·) := by
    rw [Memory.ofBytes_indices]; exact List.pairwise_lt_range'
  exact List.pairwise_map.1 h

/-- The empty buffer of reset has the canonical form. -/
theorem Memory.wf_reset : State.reset.mem.wf := List.Pairwise.nil

/-- Two buffers in canonical form that read alike everywhere are equal data. -/
theorem Memory.ext_of_wf {m m' : Memory} (h : m.wf) (h' : m'.wf) (hr : ∀ a, m.read a = m'.read a) : m = m' := by
  induction m generalizing m' with
  | nil =>
    cases m' with
    | nil => rfl
    | cons c m' => have := hr c.1; simp [Memory.read] at this
  | cons c m ih =>
    obtain ⟨k, c⟩ := c
    cases m' with
    | nil => have := hr k; simp [Memory.read] at this
    | cons c' m' =>
      obtain ⟨k', c'⟩ := c'
      obtain ⟨hk, hm⟩ := List.pairwise_cons.1 h
      obtain ⟨hk', hm'⟩ := List.pairwise_cons.1 h'
      have below : ∀ {l : Memory} {x : Nat}, (∀ y ∈ l, x < y.1) → ∀ z, z ≤ x → Memory.read l z = none := by
        intro l x hl z hz
        by_contra hne
        have := (Memory.read_isSome_iff l z).1 (Option.isSome_iff_ne_none.2 hne)
        obtain ⟨y, hy, rfl⟩ := List.mem_map.1 this
        have := hl y hy; omega
      have hkk : k = k' := by
        rcases Nat.lt_trichotomy k k' with hlt | heq | hlt
        · have h1 := hr k
          simp only [Memory.read, if_true] at h1
          rw [if_neg (by omega), below hk' k (by omega)] at h1
          cases h1
        · exact heq
        · have h1 := hr k'
          simp only [Memory.read, if_true] at h1
          rw [if_neg (by omega), below hk k' (by omega)] at h1
          cases h1
      subst hkk
      have hcc : c = c' := by simpa [Memory.read] using hr k
      subst hcc
      refine congrArg _ (ih hm hm' fun a => ?_)
      by_cases ha : k = a
      · subst ha; rw [below hk k (Nat.le_refl _), below hk' k (Nat.le_refl _)]
      · simpa [Memory.read, ha] using hr a

/-! ### Runs of bytes -/

/-- `MemRead(a, 0) = 0` (spec/20_memory.md R33). -/
@[simp] theorem Memory.readNat_zero (m : Memory) (a : Nat) : m.readNat a 0 = some 0 := rfl

/-- `MemWrite(a, 0, v)` does nothing (spec/00_scope.md R5). -/
@[simp] theorem Memory.writeNat_zero (m : Memory) (a v : Nat) : m.writeNat a 0 v = m := rfl

@[simp] theorem Memory.readBytes_zero (m : Memory) (a : Nat) : m.readBytes a 0 = some [] := rfl

/-- What one byte reads as after `MemWrite`: byte `x - a` of the number inside the run, the old byte outside it. -/
theorem Memory.read_writeNat (m : Memory) (a n v x : Nat) :
    (m.writeNat a n v).read x =
      if a ≤ x ∧ x < a + n then some (BitVec.ofNat 8 (v / 256 ^ (x - a))) else m.read x := by
  induction n generalizing m a v with
  | zero => rw [if_neg (by omega)]; rfl
  | succ n ih =>
    rw [Memory.writeNat, ih, Memory.read_write]
    by_cases hx : x = a
    · subst hx; simp
    · by_cases hin : a + 1 ≤ x ∧ x < a + 1 + n
      · rw [if_pos hin, if_pos (by omega), Nat.div_div_eq_div_mul, ← Nat.pow_succ', show x - a = (x - (a + 1)) + 1 by omega]
      · rw [if_neg hin, if_neg hx, if_neg (by omega)]

/-- `MemRead` answers exactly when every byte of the run is there. -/
theorem Memory.readNat_isSome_iff (m : Memory) (a n : Nat) :
    (m.readNat a n).isSome = true ↔ ∀ i < n, (m.read (a + i)).isSome = true := by
  induction n generalizing a with
  | zero => simp
  | succ n ih =>
    have step : (m.readNat a (n + 1)).isSome = true ↔ (m.read a).isSome = true ∧ (m.readNat (a + 1) n).isSome = true := by
      rw [Memory.readNat]
      cases m.read a <;> cases m.readNat (a + 1) n <;> simp
    rw [step, ih]
    constructor
    · rintro ⟨h0, h⟩ i hi
      cases i with
      | zero => exact h0
      | succ i => rw [show a + (i + 1) = a + 1 + i by omega]; exact h i (by omega)
    · intro h
      exact ⟨h 0 (by omega), fun i hi => by rw [show a + 1 + i = a + (i + 1) by omega]; exact h (i + 1) (by omega)⟩

/-- A number read from `n` bytes is below `256 ^ n`. -/
theorem Memory.readNat_lt {m : Memory} {a n v : Nat} (h : m.readNat a n = some v) : v < 256 ^ n := by
  induction n generalizing a v with
  | zero => cases h; simp
  | succ n ih =>
    rw [Memory.readNat] at h
    split at h
    · next b w hb hw =>
      cases h
      have := ih hw
      have := b.isLt
      rw [Nat.pow_succ]; omega
    · cases h

/-- Two buffers that agree on a run give the same number. -/
theorem Memory.readNat_congr {m m' : Memory} {a n : Nat} (h : ∀ i < n, m.read (a + i) = m'.read (a + i)) :
    m.readNat a n = m'.readNat a n := by
  induction n generalizing a with
  | zero => rfl
  | succ n ih =>
    rw [Memory.readNat, Memory.readNat, show m.read a = m'.read a from h 0 (by omega)]
    rw [ih fun i hi => by rw [show a + 1 + i = a + (i + 1) by omega]; exact h (i + 1) (by omega)]

/-- STORE's byte sequence answers exactly when every byte of the run is there. -/
theorem Memory.readBytes_isSome_iff (m : Memory) (a n : Nat) :
    (m.readBytes a n).isSome = true ↔ ∀ i < n, (m.read (a + i)).isSome = true := by
  induction n generalizing a with
  | zero => simp
  | succ n ih =>
    have step : (m.readBytes a (n + 1)).isSome = true ↔ (m.read a).isSome = true ∧ (m.readBytes (a + 1) n).isSome = true := by
      rw [Memory.readBytes]
      cases m.read a <;> cases m.readBytes (a + 1) n <;> simp
    rw [step, ih]
    constructor
    · rintro ⟨h0, h⟩ i hi
      cases i with
      | zero => exact h0
      | succ i => rw [show a + (i + 1) = a + 1 + i by omega]; exact h i (by omega)
    · intro h
      exact ⟨h 0 (by omega), fun i hi => by rw [show a + 1 + i = a + (i + 1) by omega]; exact h (i + 1) (by omega)⟩

/-- What STORE's byte sequence is: `n` bytes, the `i`-th the one at `a + i`. -/
theorem Memory.readBytes_spec {m : Memory} {a n : Nat} {bs : List Byte} (h : m.readBytes a n = some bs) :
    bs.length = n ∧ ∀ i < n, bs[i]? = m.read (a + i) := by
  induction n generalizing a bs with
  | zero => cases h; simp
  | succ n ih =>
    rw [Memory.readBytes] at h
    split at h
    · next b cs hb hcs =>
      cases h
      obtain ⟨hl, hi⟩ := ih hcs
      refine ⟨by simp [hl], fun i hin => ?_⟩
      cases i with
      | zero => simp [hb]
      | succ i => rw [List.getElem?_cons_succ, hi i (by omega)]; congr 1; omega
    · cases h

/-- What one byte of a loaded buffer reads as (spec/44_bulk_and_cursor.md R89). -/
theorem Memory.read_ofBytes (a : Nat) (bs : List Byte) (x : Nat) :
    (Memory.ofBytes a bs).read x = if a ≤ x then bs[x - a]? else none := by
  induction bs generalizing a with
  | nil => simp [Memory.ofBytes]
  | cons b bs ih =>
    rw [Memory.ofBytes, Memory.read, ih]
    by_cases h : a = x
    · subst h; simp
    · by_cases h1 : a + 1 ≤ x
      · rw [if_neg h, if_pos h1, if_pos (by omega), show x - a = (x - (a + 1)) + 1 by omega, List.getElem?_cons_succ]
      · rw [if_neg h, if_neg h1, if_neg (by omega)]

/-! ### Buffers that hold exactly the indices below a length -/

/-- A buffer that lists the indices 0 to `n - 1` in order has the canonical form. -/
theorem Memory.wf_of_indices {m : Memory} {n : Nat} (h : m.map Prod.fst = List.range n) : m.wf := by
  have : (m.map Prod.fst).Pairwise (· < ·) := by rw [h]; exact List.pairwise_lt_range
  exact List.pairwise_map.1 this

/-- In such a buffer an index holds a byte exactly when it is below the length (spec/10_state.md R10). -/
theorem Memory.read_isSome_of_indices {m : Memory} {n : Nat} (h : m.map Prod.fst = List.range n) (a : Nat) :
    (m.read a).isSome = true ↔ a < n := by
  rw [Memory.read_isSome_iff, h, List.mem_range]

/-- A canonical buffer whose bytes are exactly those below a length lists them in order. -/
theorem Memory.indices_of_read {m : Memory} {n : Nat} (h : m.wf) (hr : ∀ a, (m.read a).isSome = true ↔ a < n) :
    m.map Prod.fst = List.range n := by
  have hs : (m.map Prod.fst).Pairwise (· < ·) := List.pairwise_map.2 h
  refine List.Perm.eq_of_pairwise (le := (· < ·)) (fun a b _ _ h1 h2 => absurd h1 (by omega)) hs List.pairwise_lt_range ?_
  refine (List.perm_ext_iff_of_nodup (hs.imp fun h => by omega) List.nodup_range).2 fun a => ?_
  rw [← Memory.read_isSome_iff, hr, List.mem_range]

/-- `MemWrite` from an index no further than the end leaves a gapless buffer gapless. -/
theorem Memory.indices_writeNat {m : Memory} {len : Nat} (h : m.map Prod.fst = List.range len) {a n : Nat} (v : Nat)
    (ha : a ≤ len) (hn : len ≤ a + n) : (m.writeNat a n v).map Prod.fst = List.range (a + n) := by
  refine Memory.indices_of_read (Memory.wf_writeNat a n v (Memory.wf_of_indices h)) fun x => ?_
  rw [Memory.read_writeNat]
  split
  · next hx => simp [hx.2]
  · next hx => rw [Memory.read_isSome_of_indices h]; omega

/-! ### The bit string -/

@[simp] theorem Memory.streamBits_zero (m : Memory) (p : Nat) : m.streamBits p 0 = 0 := rfl

theorem Memory.streamBit_le (m : Memory) (p : Nat) : m.streamBit p ≤ 1 := by
  unfold Memory.streamBit
  split
  · next b _ => cases b.getLsbD (p % 8) <;> simp
  · simp

/-- A field of `n` bits is below `2 ^ n`. -/
theorem Memory.streamBits_lt (m : Memory) (p n : Nat) : m.streamBits p n < 2 ^ n := by
  induction n with
  | zero => simp
  | succ n ih =>
    have := m.streamBit_le (p + n)
    rw [Memory.streamBits, Nat.shiftLeft_eq, Nat.pow_succ]
    have : m.streamBit (p + n) * 2 ^ n ≤ 1 * 2 ^ n := Nat.mul_le_mul_right _ this
    omega

/-- Two buffers that agree on the bits of a field give the same field. -/
theorem Memory.streamBits_congr {m m' : Memory} {p n : Nat} (h : ∀ i < n, m.streamBit (p + i) = m'.streamBit (p + i)) :
    m.streamBits p n = m'.streamBits p n := by
  induction n with
  | zero => rfl
  | succ n ih => rw [Memory.streamBits, Memory.streamBits, ih fun i hi => h i (by omega), h n (by omega)]

/-- A bit of the bit string is 0 or 1. -/
theorem Memory.streamBit_eq_zero_or_one (m : Memory) (p : Nat) : m.streamBit p = 0 ∨ m.streamBit p = 1 := by
  have := m.streamBit_le p; omega

theorem Memory.streamBit_eq_toNat (m : Memory) (p : Nat) :
    m.streamBit p = (decide (m.streamBit p = 1)).toNat := by
  rcases m.streamBit_eq_zero_or_one p with h | h <;> simp [h]

/-- The bits of a field: bit `i` is the bit string's at `p + i`, below the field's width. -/
theorem Memory.testBit_streamBits (m : Memory) (p n i : Nat) :
    (m.streamBits p n).testBit i = (decide (i < n) && decide (m.streamBit (p + i) = 1)) := by
  induction n with
  | zero => simp
  | succ n ih =>
    have hlt := m.streamBits_lt p n
    rw [Memory.streamBits, Nat.add_comm, Nat.shiftLeft_add_eq_or_of_lt hlt, Nat.testBit_or, ih, Nat.testBit_shiftLeft, Memory.streamBit_eq_toNat]
    have bt : ∀ (q : Bool) (k : Nat), q.toNat.testBit k = (decide (k = 0) && q) := by
      intro q k; cases q <;> cases k <;> simp [Nat.testBit_succ]
    rw [bt]
    rcases Nat.lt_trichotomy i n with h | h | h
    · have : ¬ n ≤ i := by omega
      simp [h, Nat.lt_succ_of_lt h, this]
    · subst h; simp
    · have h1 : ¬ i < n + 1 := by omega
      have h2 : ¬ i < n := by omega
      have h3 : i - n ≠ 0 := by omega
      simp [h1, h2, h3]

/-- The bits of a number read from `n` bytes are the bit string's from the first of them (spec/20_memory.md R30). -/
theorem Memory.testBit_readNat {m : Memory} {a n v : Nat} (h : m.readNat a n = some v) (i : Nat) :
    v.testBit i = (decide (i < 8 * n) && decide (m.streamBit (8 * a + i) = 1)) := by
  induction n generalizing a v i with
  | zero => cases h; simp
  | succ n ih =>
    rw [Memory.readNat] at h
    split at h
    · next b w hb hw =>
      cases h
      have e : b.toNat + 256 * w = 2^8 * w + b.toNat := by omega
      rw [e]
      by_cases hi : i < 8
      · rw [Nat.testBit_two_pow_mul_add w b.isLt, if_pos hi]
        have h1 : (8 * a + i)/8 = a := by omega
        have h2 : (8 * a + i)%8 = i := by omega
        have h3 : i < 8 * (n+1) := by omega
        simp only [Memory.streamBit, h1, h2, hb, h3, decide_true, Bool.true_and]
        rw [← BitVec.testBit_toNat]
        cases b.toNat.testBit i <;> simp
      · rw [Nat.testBit_two_pow_mul_add w b.isLt, if_neg hi, ih hw]
        have h1 : 8 * (a+1) + (i - 8) = 8 * a + i := by omega
        have h2 : (i - 8 < 8 * n) = (i < 8 * (n+1)) := by simp; omega
        simp [h1, h2]
    · cases h

/-- The bit string after a run of bytes is written: the number's bits where the run stands, the old ones elsewhere. -/
theorem Memory.streamBit_writeNat (m : Memory) (a n v p : Nat) :
    (m.writeNat a n v).streamBit p =
      if 8 * a ≤ p ∧ p < 8 * (a + n) then (v.testBit (p - 8 * a)).toNat else m.streamBit p := by
  unfold Memory.streamBit
  rw [Memory.read_writeNat]
  by_cases h : 8 * a ≤ p ∧ p < 8 * (a + n)
  · rw [if_pos h, if_pos (by omega)]
    simp only [BitVec.getLsbD_ofNat]
    have h8 : p % 8 < 8 := by omega
    rw [show (256 : Nat) = 2 ^ 8 from rfl, ← Nat.pow_mul, Nat.testBit_div_two_pow]
    have : p % 8 + 8 * (p / 8 - a) = p - 8 * a := by omega
    simp [h8, this]
  · rw [if_neg h, if_neg (by omega)]

end Sys2Proof.Machine
end

