-- ==== Sys2Proof/Laws/State.lean ====
section
/-! SUPPORT. One lemma per field per update of the state, each true by rfl, so that no proof unfolds an update. -/

namespace Sys2Proof.Machine

/-! ### `respond` -/

@[simp] theorem State.respond_mem (s : State) (st : Status) : (s.respond st).mem = s.mem := rfl
@[simp] theorem State.respond_len (s : State) (st : Status) : (s.respond st).len = s.len := rfl
@[simp] theorem State.respond_wfill (s : State) (st : Status) : (s.respond st).wfill = s.wfill := rfl
@[simp] theorem State.respond_roff (s : State) (st : Status) : (s.respond st).roff = s.roff := rfl
@[simp] theorem State.respond_rcnt (s : State) (st : Status) : (s.respond st).rcnt = s.rcnt := rfl
@[simp] theorem State.respond_rfill (s : State) (st : Status) : (s.respond st).rfill = s.rfill := rfl
@[simp] theorem State.respond_eflags (s : State) (st : Status) : (s.respond st).eflags = s.eflags := rfl
@[simp] theorem State.respond_cap (s : State) (st : Status) : (s.respond st).cap = s.cap := rfl
@[simp] theorem State.respond_wdata (s : State) (st : Status) : (s.respond st).wdata = s.wdata := rfl
@[simp] theorem State.respond_lsrc (s : State) (st : Status) : (s.respond st).lsrc = s.lsrc := rfl
@[simp] theorem State.respond_response (s : State) (st : Status) : (s.respond st).response = some { status := st, rdata := none, sdst := none } := rfl
@[simp] theorem State.respond_statusOut (s : State) (st : Status) : (s.respond st).statusOut = s.statusOut := rfl
@[simp] theorem State.respond_input (s : State) (st : Status) : (s.respond st).input = s.input := rfl

/-! ### `respondValue` -/

@[simp] theorem State.respondValue_mem (s : State) (v : Nat) : (s.respondValue v).mem = s.mem := rfl
@[simp] theorem State.respondValue_len (s : State) (v : Nat) : (s.respondValue v).len = s.len := rfl
@[simp] theorem State.respondValue_wfill (s : State) (v : Nat) : (s.respondValue v).wfill = s.wfill := rfl
@[simp] theorem State.respondValue_roff (s : State) (v : Nat) : (s.respondValue v).roff = s.roff := rfl
@[simp] theorem State.respondValue_rcnt (s : State) (v : Nat) : (s.respondValue v).rcnt = s.rcnt := rfl
@[simp] theorem State.respondValue_rfill (s : State) (v : Nat) : (s.respondValue v).rfill = s.rfill := rfl
@[simp] theorem State.respondValue_eflags (s : State) (v : Nat) : (s.respondValue v).eflags = s.eflags := rfl
@[simp] theorem State.respondValue_cap (s : State) (v : Nat) : (s.respondValue v).cap = s.cap := rfl
@[simp] theorem State.respondValue_wdata (s : State) (v : Nat) : (s.respondValue v).wdata = s.wdata := rfl
@[simp] theorem State.respondValue_lsrc (s : State) (v : Nat) : (s.respondValue v).lsrc = s.lsrc := rfl
@[simp] theorem State.respondValue_response (s : State) (v : Nat) : (s.respondValue v).response = some { status := .ok, rdata := some (BitVec.ofNat 64 v), sdst := none } := rfl
@[simp] theorem State.respondValue_statusOut (s : State) (v : Nat) : (s.respondValue v).statusOut = s.statusOut := rfl
@[simp] theorem State.respondValue_input (s : State) (v : Nat) : (s.respondValue v).input = s.input := rfl

/-! ### `respondBytes` -/

@[simp] theorem State.respondBytes_mem (s : State) (bs : List Byte) : (s.respondBytes bs).mem = s.mem := rfl
@[simp] theorem State.respondBytes_len (s : State) (bs : List Byte) : (s.respondBytes bs).len = s.len := rfl
@[simp] theorem State.respondBytes_wfill (s : State) (bs : List Byte) : (s.respondBytes bs).wfill = s.wfill := rfl
@[simp] theorem State.respondBytes_roff (s : State) (bs : List Byte) : (s.respondBytes bs).roff = s.roff := rfl
@[simp] theorem State.respondBytes_rcnt (s : State) (bs : List Byte) : (s.respondBytes bs).rcnt = s.rcnt := rfl
@[simp] theorem State.respondBytes_rfill (s : State) (bs : List Byte) : (s.respondBytes bs).rfill = s.rfill := rfl
@[simp] theorem State.respondBytes_eflags (s : State) (bs : List Byte) : (s.respondBytes bs).eflags = s.eflags := rfl
@[simp] theorem State.respondBytes_cap (s : State) (bs : List Byte) : (s.respondBytes bs).cap = s.cap := rfl
@[simp] theorem State.respondBytes_wdata (s : State) (bs : List Byte) : (s.respondBytes bs).wdata = s.wdata := rfl
@[simp] theorem State.respondBytes_lsrc (s : State) (bs : List Byte) : (s.respondBytes bs).lsrc = s.lsrc := rfl
@[simp] theorem State.respondBytes_response (s : State) (bs : List Byte) : (s.respondBytes bs).response = some { status := .ok, rdata := none, sdst := some bs } := rfl
@[simp] theorem State.respondBytes_statusOut (s : State) (bs : List Byte) : (s.respondBytes bs).statusOut = s.statusOut := rfl
@[simp] theorem State.respondBytes_input (s : State) (bs : List Byte) : (s.respondBytes bs).input = s.input := rfl

/-! ### `raise` -/

@[simp] theorem State.raise_mem (s : State) (f : FaultClass) : (s.raise f).mem = s.mem := rfl
@[simp] theorem State.raise_len (s : State) (f : FaultClass) : (s.raise f).len = s.len := rfl
@[simp] theorem State.raise_wfill (s : State) (f : FaultClass) : (s.raise f).wfill = s.wfill := rfl
@[simp] theorem State.raise_roff (s : State) (f : FaultClass) : (s.raise f).roff = s.roff := rfl
@[simp] theorem State.raise_rcnt (s : State) (f : FaultClass) : (s.raise f).rcnt = s.rcnt := rfl
@[simp] theorem State.raise_rfill (s : State) (f : FaultClass) : (s.raise f).rfill = s.rfill := rfl
@[simp] theorem State.raise_eflags (s : State) (f : FaultClass) : (s.raise f).eflags = setFlag s.eflags f := rfl
@[simp] theorem State.raise_cap (s : State) (f : FaultClass) : (s.raise f).cap = s.cap := rfl
@[simp] theorem State.raise_wdata (s : State) (f : FaultClass) : (s.raise f).wdata = s.wdata := rfl
@[simp] theorem State.raise_lsrc (s : State) (f : FaultClass) : (s.raise f).lsrc = s.lsrc := rfl
@[simp] theorem State.raise_response (s : State) (f : FaultClass) : (s.raise f).response = some { status := f.status, rdata := none, sdst := none } := rfl
@[simp] theorem State.raise_statusOut (s : State) (f : FaultClass) : (s.raise f).statusOut = s.statusOut := rfl
@[simp] theorem State.raise_input (s : State) (f : FaultClass) : (s.raise f).input = s.input := rfl

/-! ### `refuseHalted` -/

@[simp] theorem State.refuseHalted_mem (s : State) : s.refuseHalted.mem = s.mem := rfl
@[simp] theorem State.refuseHalted_len (s : State) : s.refuseHalted.len = s.len := rfl
@[simp] theorem State.refuseHalted_wfill (s : State) : s.refuseHalted.wfill = s.wfill := rfl
@[simp] theorem State.refuseHalted_roff (s : State) : s.refuseHalted.roff = s.roff := rfl
@[simp] theorem State.refuseHalted_rcnt (s : State) : s.refuseHalted.rcnt = s.rcnt := rfl
@[simp] theorem State.refuseHalted_rfill (s : State) : s.refuseHalted.rfill = s.rfill := rfl
@[simp] theorem State.refuseHalted_eflags (s : State) : s.refuseHalted.eflags = s.eflags := rfl
@[simp] theorem State.refuseHalted_cap (s : State) : s.refuseHalted.cap = s.cap := rfl
@[simp] theorem State.refuseHalted_wdata (s : State) : s.refuseHalted.wdata = s.wdata := rfl
@[simp] theorem State.refuseHalted_lsrc (s : State) : s.refuseHalted.lsrc = s.lsrc := rfl
@[simp] theorem State.refuseHalted_response (s : State) : s.refuseHalted.response = some { status := .errHalted, rdata := none, sdst := none } := rfl
@[simp] theorem State.refuseHalted_statusOut (s : State) : s.refuseHalted.statusOut = s.statusOut := rfl
@[simp] theorem State.refuseHalted_input (s : State) : s.refuseHalted.input = s.input := rfl

/-! ### `present` -/

@[simp] theorem State.present_mem (s : State) (rest : List HostEvent) (v : Value) (l : List Byte) : (s.present rest v l).mem = s.mem := rfl
@[simp] theorem State.present_len (s : State) (rest : List HostEvent) (v : Value) (l : List Byte) : (s.present rest v l).len = s.len := rfl
@[simp] theorem State.present_wfill (s : State) (rest : List HostEvent) (v : Value) (l : List Byte) : (s.present rest v l).wfill = s.wfill := rfl
@[simp] theorem State.present_roff (s : State) (rest : List HostEvent) (v : Value) (l : List Byte) : (s.present rest v l).roff = s.roff := rfl
@[simp] theorem State.present_rcnt (s : State) (rest : List HostEvent) (v : Value) (l : List Byte) : (s.present rest v l).rcnt = s.rcnt := rfl
@[simp] theorem State.present_rfill (s : State) (rest : List HostEvent) (v : Value) (l : List Byte) : (s.present rest v l).rfill = s.rfill := rfl
@[simp] theorem State.present_eflags (s : State) (rest : List HostEvent) (v : Value) (l : List Byte) : (s.present rest v l).eflags = s.eflags := rfl
@[simp] theorem State.present_cap (s : State) (rest : List HostEvent) (v : Value) (l : List Byte) : (s.present rest v l).cap = s.cap := rfl
@[simp] theorem State.present_wdata (s : State) (rest : List HostEvent) (v : Value) (l : List Byte) : (s.present rest v l).wdata = v := rfl
@[simp] theorem State.present_lsrc (s : State) (rest : List HostEvent) (v : Value) (l : List Byte) : (s.present rest v l).lsrc = l := rfl
@[simp] theorem State.present_response (s : State) (rest : List HostEvent) (v : Value) (l : List Byte) : (s.present rest v l).response = s.response := rfl
@[simp] theorem State.present_statusOut (s : State) (rest : List HostEvent) (v : Value) (l : List Byte) : (s.present rest v l).statusOut = s.statusOut := rfl
@[simp] theorem State.present_input (s : State) (rest : List HostEvent) (v : Value) (l : List Byte) : (s.present rest v l).input = rest := rfl

/-! ### `resetInput` -/

@[simp] theorem State.resetInput_mem (s : State) (rest : List HostEvent) : (s.resetInput rest).mem = [] := rfl
@[simp] theorem State.resetInput_len (s : State) (rest : List HostEvent) : (s.resetInput rest).len = 0 := rfl
@[simp] theorem State.resetInput_wfill (s : State) (rest : List HostEvent) : (s.resetInput rest).wfill = 0 := rfl
@[simp] theorem State.resetInput_roff (s : State) (rest : List HostEvent) : (s.resetInput rest).roff = 0 := rfl
@[simp] theorem State.resetInput_rcnt (s : State) (rest : List HostEvent) : (s.resetInput rest).rcnt = 0 := rfl
@[simp] theorem State.resetInput_rfill (s : State) (rest : List HostEvent) : (s.resetInput rest).rfill = 0 := rfl
@[simp] theorem State.resetInput_eflags (s : State) (rest : List HostEvent) : (s.resetInput rest).eflags = 0 := rfl
@[simp] theorem State.resetInput_cap (s : State) (rest : List HostEvent) : (s.resetInput rest).cap = s.cap := rfl
@[simp] theorem State.resetInput_wdata (s : State) (rest : List HostEvent) : (s.resetInput rest).wdata = 0 := rfl
@[simp] theorem State.resetInput_lsrc (s : State) (rest : List HostEvent) : (s.resetInput rest).lsrc = [] := rfl
@[simp] theorem State.resetInput_response (s : State) (rest : List HostEvent) : (s.resetInput rest).response = none := rfl
@[simp] theorem State.resetInput_statusOut (s : State) (rest : List HostEvent) : (s.resetInput rest).statusOut = none := rfl
@[simp] theorem State.resetInput_input (s : State) (rest : List HostEvent) : (s.resetInput rest).input = rest := rfl

/-! ### `readStatus` -/

@[simp] theorem State.readStatus_mem (s : State) (rest : List HostEvent) (k : Nat) : (s.readStatus rest k).mem = s.mem := rfl
@[simp] theorem State.readStatus_len (s : State) (rest : List HostEvent) (k : Nat) : (s.readStatus rest k).len = s.len := rfl
@[simp] theorem State.readStatus_wfill (s : State) (rest : List HostEvent) (k : Nat) : (s.readStatus rest k).wfill = s.wfill := rfl
@[simp] theorem State.readStatus_roff (s : State) (rest : List HostEvent) (k : Nat) : (s.readStatus rest k).roff = s.roff := rfl
@[simp] theorem State.readStatus_rcnt (s : State) (rest : List HostEvent) (k : Nat) : (s.readStatus rest k).rcnt = s.rcnt := rfl
@[simp] theorem State.readStatus_rfill (s : State) (rest : List HostEvent) (k : Nat) : (s.readStatus rest k).rfill = s.rfill := rfl
@[simp] theorem State.readStatus_eflags (s : State) (rest : List HostEvent) (k : Nat) : (s.readStatus rest k).eflags = s.eflags := rfl
@[simp] theorem State.readStatus_cap (s : State) (rest : List HostEvent) (k : Nat) : (s.readStatus rest k).cap = s.cap := rfl
@[simp] theorem State.readStatus_wdata (s : State) (rest : List HostEvent) (k : Nat) : (s.readStatus rest k).wdata = s.wdata := rfl
@[simp] theorem State.readStatus_lsrc (s : State) (rest : List HostEvent) (k : Nat) : (s.readStatus rest k).lsrc = s.lsrc := rfl
@[simp] theorem State.readStatus_response (s : State) (rest : List HostEvent) (k : Nat) : (s.readStatus rest k).response = s.response := rfl
@[simp] theorem State.readStatus_statusOut (s : State) (rest : List HostEvent) (k : Nat) : (s.readStatus rest k).statusOut = some (s.statusRegister k) := rfl
@[simp] theorem State.readStatus_input (s : State) (rest : List HostEvent) (k : Nat) : (s.readStatus rest k).input = rest := rfl

/-! ### `afterWrite` -/

@[simp] theorem State.afterWrite_mem (s : State) (n : Nat) (t : Byte) : (s.afterWrite n t).mem = s.mem.writeNat s.writeBase (s.writeCount n) (combine s.writeOperand s.writeFill t.toNat n) := rfl
@[simp] theorem State.afterWrite_len (s : State) (n : Nat) (t : Byte) : (s.afterWrite n t).len = s.writeBase + s.writeCount n := rfl
@[simp] theorem State.afterWrite_wfill (s : State) (n : Nat) (t : Byte) : (s.afterWrite n t).wfill = BitVec.ofNat 4 (fillOf (s.writeFill + n)) := rfl
@[simp] theorem State.afterWrite_roff (s : State) (n : Nat) (t : Byte) : (s.afterWrite n t).roff = s.roff := rfl
@[simp] theorem State.afterWrite_rcnt (s : State) (n : Nat) (t : Byte) : (s.afterWrite n t).rcnt = s.writeBase + s.writeCount n - s.roff := rfl
@[simp] theorem State.afterWrite_rfill (s : State) (n : Nat) (t : Byte) : (s.afterWrite n t).rfill = s.rfillAfterWrite n := rfl
@[simp] theorem State.afterWrite_eflags (s : State) (n : Nat) (t : Byte) : (s.afterWrite n t).eflags = s.eflags := rfl
@[simp] theorem State.afterWrite_cap (s : State) (n : Nat) (t : Byte) : (s.afterWrite n t).cap = s.cap := rfl
@[simp] theorem State.afterWrite_wdata (s : State) (n : Nat) (t : Byte) : (s.afterWrite n t).wdata = s.wdata := rfl
@[simp] theorem State.afterWrite_lsrc (s : State) (n : Nat) (t : Byte) : (s.afterWrite n t).lsrc = s.lsrc := rfl
@[simp] theorem State.afterWrite_response (s : State) (n : Nat) (t : Byte) : (s.afterWrite n t).response = s.response := rfl
@[simp] theorem State.afterWrite_statusOut (s : State) (n : Nat) (t : Byte) : (s.afterWrite n t).statusOut = s.statusOut := rfl
@[simp] theorem State.afterWrite_input (s : State) (n : Nat) (t : Byte) : (s.afterWrite n t).input = s.input := rfl

/-! ### `afterRead` -/

@[simp] theorem State.afterRead_mem (s : State) (n : Nat) : (s.afterRead n).mem = s.mem := rfl
@[simp] theorem State.afterRead_len (s : State) (n : Nat) : (s.afterRead n).len = s.len := rfl
@[simp] theorem State.afterRead_wfill (s : State) (n : Nat) : (s.afterRead n).wfill = s.wfill := rfl
@[simp] theorem State.afterRead_roff (s : State) (n : Nat) : (s.afterRead n).roff = s.roff + s.readDrop n := rfl
@[simp] theorem State.afterRead_rcnt (s : State) (n : Nat) : (s.afterRead n).rcnt = s.rcnt - s.readDrop n := rfl
@[simp] theorem State.afterRead_rfill (s : State) (n : Nat) : (s.afterRead n).rfill = s.rfillAfterRead n := rfl
@[simp] theorem State.afterRead_eflags (s : State) (n : Nat) : (s.afterRead n).eflags = s.eflags := rfl
@[simp] theorem State.afterRead_cap (s : State) (n : Nat) : (s.afterRead n).cap = s.cap := rfl
@[simp] theorem State.afterRead_wdata (s : State) (n : Nat) : (s.afterRead n).wdata = s.wdata := rfl
@[simp] theorem State.afterRead_lsrc (s : State) (n : Nat) : (s.afterRead n).lsrc = s.lsrc := rfl
@[simp] theorem State.afterRead_response (s : State) (n : Nat) : (s.afterRead n).response = s.response := rfl
@[simp] theorem State.afterRead_statusOut (s : State) (n : Nat) : (s.afterRead n).statusOut = s.statusOut := rfl
@[simp] theorem State.afterRead_input (s : State) (n : Nat) : (s.afterRead n).input = s.input := rfl

/-! ### `seekStart` -/

@[simp] theorem State.seekStart_mem (s : State) : s.seekStart.mem = s.mem := rfl
@[simp] theorem State.seekStart_len (s : State) : s.seekStart.len = s.len := rfl
@[simp] theorem State.seekStart_wfill (s : State) : s.seekStart.wfill = s.wfill := rfl
@[simp] theorem State.seekStart_roff (s : State) : s.seekStart.roff = 0 := rfl
@[simp] theorem State.seekStart_rcnt (s : State) : s.seekStart.rcnt = s.len := rfl
@[simp] theorem State.seekStart_rfill (s : State) : s.seekStart.rfill = alignedFill s.len := rfl
@[simp] theorem State.seekStart_eflags (s : State) : s.seekStart.eflags = s.eflags := rfl
@[simp] theorem State.seekStart_cap (s : State) : s.seekStart.cap = s.cap := rfl
@[simp] theorem State.seekStart_wdata (s : State) : s.seekStart.wdata = s.wdata := rfl
@[simp] theorem State.seekStart_lsrc (s : State) : s.seekStart.lsrc = s.lsrc := rfl
@[simp] theorem State.seekStart_response (s : State) : s.seekStart.response = s.response := rfl
@[simp] theorem State.seekStart_statusOut (s : State) : s.seekStart.statusOut = s.statusOut := rfl
@[simp] theorem State.seekStart_input (s : State) : s.seekStart.input = s.input := rfl

/-! ### `afterLoad` -/

@[simp] theorem State.afterLoad_mem (s : State) : s.afterLoad.mem = Memory.ofBytes 0 s.lsrc := rfl
@[simp] theorem State.afterLoad_len (s : State) : s.afterLoad.len = s.lsrcLen := rfl
@[simp] theorem State.afterLoad_wfill (s : State) : s.afterLoad.wfill = alignedFill s.lsrcLen := rfl
@[simp] theorem State.afterLoad_roff (s : State) : s.afterLoad.roff = 0 := rfl
@[simp] theorem State.afterLoad_rcnt (s : State) : s.afterLoad.rcnt = s.lsrcLen := rfl
@[simp] theorem State.afterLoad_rfill (s : State) : s.afterLoad.rfill = alignedFill s.lsrcLen := rfl
@[simp] theorem State.afterLoad_eflags (s : State) : s.afterLoad.eflags = s.eflags := rfl
@[simp] theorem State.afterLoad_cap (s : State) : s.afterLoad.cap = s.cap := rfl
@[simp] theorem State.afterLoad_wdata (s : State) : s.afterLoad.wdata = s.wdata := rfl
@[simp] theorem State.afterLoad_lsrc (s : State) : s.afterLoad.lsrc = s.lsrc := rfl
@[simp] theorem State.afterLoad_response (s : State) : s.afterLoad.response = s.response := rfl
@[simp] theorem State.afterLoad_statusOut (s : State) : s.afterLoad.statusOut = s.statusOut := rfl
@[simp] theorem State.afterLoad_input (s : State) : s.afterLoad.input = s.input := rfl

/-! ### `resetWith` -/

@[simp] theorem State.resetWith_mem (c : Capacity) : (State.resetWith c).mem = [] := rfl
@[simp] theorem State.resetWith_len (c : Capacity) : (State.resetWith c).len = 0 := rfl
@[simp] theorem State.resetWith_wfill (c : Capacity) : (State.resetWith c).wfill = 0 := rfl
@[simp] theorem State.resetWith_roff (c : Capacity) : (State.resetWith c).roff = 0 := rfl
@[simp] theorem State.resetWith_rcnt (c : Capacity) : (State.resetWith c).rcnt = 0 := rfl
@[simp] theorem State.resetWith_rfill (c : Capacity) : (State.resetWith c).rfill = 0 := rfl
@[simp] theorem State.resetWith_eflags (c : Capacity) : (State.resetWith c).eflags = 0 := rfl
@[simp] theorem State.resetWith_cap (c : Capacity) : (State.resetWith c).cap = c := rfl
@[simp] theorem State.resetWith_wdata (c : Capacity) : (State.resetWith c).wdata = 0 := rfl
@[simp] theorem State.resetWith_lsrc (c : Capacity) : (State.resetWith c).lsrc = [] := rfl
@[simp] theorem State.resetWith_response (c : Capacity) : (State.resetWith c).response = none := rfl
@[simp] theorem State.resetWith_statusOut (c : Capacity) : (State.resetWith c).statusOut = none := rfl
@[simp] theorem State.resetWith_input (c : Capacity) : (State.resetWith c).input = [] := rfl

/-! ### What a response and a presented command leave of the derived quantities -/

@[simp] theorem State.respond_halted (s : State) (st : Status) : (s.respond st).halted = s.halted := rfl
@[simp] theorem State.respond_writeFill (s : State) (st : Status) : (s.respond st).writeFill = s.writeFill := rfl
@[simp] theorem State.respond_writeBase (s : State) (st : Status) : (s.respond st).writeBase = s.writeBase := rfl
@[simp] theorem State.respond_writeCount (s : State) (st : Status) (n : Nat) : (s.respond st).writeCount n = s.writeCount n := rfl
@[simp] theorem State.respond_headReadBits (s : State) (st : Status) : (s.respond st).headReadBits = s.headReadBits := rfl
@[simp] theorem State.respond_readCount (s : State) (st : Status) (n : Nat) : (s.respond st).readCount n = s.readCount n := rfl
@[simp] theorem State.respond_payloadBits (s : State) (st : Status) : (s.respond st).payloadBits = s.payloadBits := rfl
@[simp] theorem State.respond_readPosition (s : State) (st : Status) : (s.respond st).readPosition = s.readPosition := rfl
@[simp] theorem State.respondValue_halted (s : State) (v : Nat) : (s.respondValue v).halted = s.halted := rfl
@[simp] theorem State.respondValue_writeFill (s : State) (v : Nat) : (s.respondValue v).writeFill = s.writeFill := rfl
@[simp] theorem State.respondValue_writeBase (s : State) (v : Nat) : (s.respondValue v).writeBase = s.writeBase := rfl
@[simp] theorem State.respondValue_writeCount (s : State) (v : Nat) (n : Nat) : (s.respondValue v).writeCount n = s.writeCount n := rfl
@[simp] theorem State.respondValue_headReadBits (s : State) (v : Nat) : (s.respondValue v).headReadBits = s.headReadBits := rfl
@[simp] theorem State.respondValue_readCount (s : State) (v : Nat) (n : Nat) : (s.respondValue v).readCount n = s.readCount n := rfl
@[simp] theorem State.respondValue_payloadBits (s : State) (v : Nat) : (s.respondValue v).payloadBits = s.payloadBits := rfl
@[simp] theorem State.respondValue_readPosition (s : State) (v : Nat) : (s.respondValue v).readPosition = s.readPosition := rfl
@[simp] theorem State.respondBytes_halted (s : State) (bs : List Byte) : (s.respondBytes bs).halted = s.halted := rfl
@[simp] theorem State.respondBytes_writeFill (s : State) (bs : List Byte) : (s.respondBytes bs).writeFill = s.writeFill := rfl
@[simp] theorem State.respondBytes_writeBase (s : State) (bs : List Byte) : (s.respondBytes bs).writeBase = s.writeBase := rfl
@[simp] theorem State.respondBytes_writeCount (s : State) (bs : List Byte) (n : Nat) : (s.respondBytes bs).writeCount n = s.writeCount n := rfl
@[simp] theorem State.respondBytes_headReadBits (s : State) (bs : List Byte) : (s.respondBytes bs).headReadBits = s.headReadBits := rfl
@[simp] theorem State.respondBytes_readCount (s : State) (bs : List Byte) (n : Nat) : (s.respondBytes bs).readCount n = s.readCount n := rfl
@[simp] theorem State.respondBytes_payloadBits (s : State) (bs : List Byte) : (s.respondBytes bs).payloadBits = s.payloadBits := rfl
@[simp] theorem State.respondBytes_readPosition (s : State) (bs : List Byte) : (s.respondBytes bs).readPosition = s.readPosition := rfl
@[simp] theorem State.present_halted (s : State) (rest : List HostEvent) (v : Value) (l : List Byte) : (s.present rest v l).halted = s.halted := rfl
@[simp] theorem State.present_writeFill (s : State) (rest : List HostEvent) (v : Value) (l : List Byte) : (s.present rest v l).writeFill = s.writeFill := rfl
@[simp] theorem State.present_writeBase (s : State) (rest : List HostEvent) (v : Value) (l : List Byte) : (s.present rest v l).writeBase = s.writeBase := rfl
@[simp] theorem State.present_writeCount (s : State) (rest : List HostEvent) (v : Value) (l : List Byte) (n : Nat) : (s.present rest v l).writeCount n = s.writeCount n := rfl
@[simp] theorem State.present_headReadBits (s : State) (rest : List HostEvent) (v : Value) (l : List Byte) : (s.present rest v l).headReadBits = s.headReadBits := rfl
@[simp] theorem State.present_readCount (s : State) (rest : List HostEvent) (v : Value) (l : List Byte) (n : Nat) : (s.present rest v l).readCount n = s.readCount n := rfl
@[simp] theorem State.present_payloadBits (s : State) (rest : List HostEvent) (v : Value) (l : List Byte) : (s.present rest v l).payloadBits = s.payloadBits := rfl
@[simp] theorem State.present_readPosition (s : State) (rest : List HostEvent) (v : Value) (l : List Byte) : (s.present rest v l).readPosition = s.readPosition := rfl
@[simp] theorem State.refuseHalted_halted (s : State) : s.refuseHalted.halted = s.halted := rfl
@[simp] theorem State.resetWith_halted (c : Capacity) : (State.resetWith c).halted = false := by simp [State.halted]
@[simp] theorem State.resetInput_halted (s : State) (rest : List HostEvent) : (s.resetInput rest).halted = false := by simp [State.halted]
@[simp] theorem State.afterWrite_halted (s : State) (n : Nat) (t : Byte) : (s.afterWrite n t).halted = s.halted := rfl
@[simp] theorem State.afterRead_halted (s : State) (n : Nat) : (s.afterRead n).halted = s.halted := rfl
@[simp] theorem State.seekStart_halted (s : State) : s.seekStart.halted = s.halted := rfl
@[simp] theorem State.afterLoad_halted (s : State) : s.afterLoad.halted = s.halted := rfl
@[simp] theorem State.readStatus_halted (s : State) (rest : List HostEvent) (k : Nat) : (s.readStatus rest k).halted = s.halted := rfl

end Sys2Proof.Machine
end

