-- ==== Sys2Proof/Laws/Ops.lean ====
section
/-! SUPPORT. Everything each shared operation and each meaning can do, said once: a proof about a command cites these and
does not unfold the meaning. -/

namespace Sys2Proof.Machine

/-! ### Flags and the halted state -/

/-- Halted, in the bits of `EFLAGS` (spec/60_exceptions.md R107). -/
theorem State.halted_iff (s : State) :
    s.halted = true ↔ s.eflags.getLsbD 0 = true ∨ s.eflags.getLsbD 3 = true := by
  simp [State.halted, FaultClass.flagBit]

/-- What each flag of `EFLAGS` is after a fault (spec/60_exceptions.md R106). -/
theorem getLsbD_setFlag (e : Nibble) (f : FaultClass) (i : Nat) :
    (setFlag e f).getLsbD i = (e.getLsbD i || decide (i = f.flagBit)) := by
  have hf : f.flag.getLsbD i = decide (i = f.flagBit) := by
    by_cases hi : i < 4
    · have : i = 0 ∨ i = 1 ∨ i = 2 ∨ i = 3 := by omega
      rcases this with rfl | rfl | rfl | rfl <;> cases f <;> decide
    · have hb : f.flagBit < 4 := by cases f <;> decide
      rw [BitVec.getLsbD_of_ge _ _ (by omega), decide_eq_false (by omega)]
  simp [setFlag, hf]

/-- A halting fault halts, and no fault ends a halt. -/
theorem State.raise_halted (s : State) (f : FaultClass) :
    (s.raise f).halted = (s.halted || decide (f = .contractViolation) || decide (f = .illegalCommand)) := by
  simp only [State.halted, State.raise_eflags, getLsbD_setFlag]
  cases f <;> simp [FaultClass.flagBit]

/-! ### The region view (spec/43_region_view.md) -/

theorem Region.subspan1_eq_some_iff (r r' : Region) (off : Nat) :
    r.subspan1 off = some r' ↔ off ≤ r.count ∧ r' = { offset := r.offset + off, count := r.count - off } := by
  unfold Region.subspan1
  split <;> simp [*, eq_comm]

theorem Region.subspan2_eq_some_iff (r r' : Region) (off cnt : Nat) :
    r.subspan2 off cnt = some r' ↔ off + cnt ≤ r.count ∧ r' = { offset := r.offset + off, count := cnt } := by
  unfold Region.subspan2
  split <;> simp [*, eq_comm]

/-- The narrowing of a read is `Subspan1` of the read region by `drop` (spec/43_region_view.md R87). -/
theorem State.afterRead_readRegion (s : State) (n : Nat) (h : s.readCount n ≤ s.rcnt) :
    s.readRegion.subspan1 (s.readDrop n) = some (s.afterRead n).readRegion := by
  refine (Region.subspan1_eq_some_iff _ _ _).2 ⟨?_, rfl⟩
  change s.readDrop n ≤ s.rcnt
  unfold State.readDrop
  split <;> omega

/-! ### Derived quantities of the two datapaths -/

/-- The old fill is 0 to 7 (spec/20_memory.md R36). -/
theorem State.writeFill_le (s : State) : s.writeFill ≤ 7 := by
  unfold State.writeFill
  split
  · next h => exact h.2
  · omega

theorem State.writeBase_le (s : State) : s.writeBase ≤ s.len := by
  unfold State.writeBase
  split <;> omega

/-- A write of at least one bit emits at least one byte. -/
theorem State.writeCount_pos (s : State) (n : Nat) (h : 1 ≤ n) : 1 ≤ s.writeCount n :=
  bytesNeeded_pos _ (by omega)

/-- A write never makes the buffer shorter. -/
theorem State.len_le_afterWrite (s : State) (n : Nat) (h : 1 ≤ n) : s.len ≤ s.writeBase + s.writeCount n := by
  have := s.writeCount_pos n h
  unfold State.writeBase
  split <;> omega

theorem State.headReadBits_le (s : State) : s.headReadBits ≤ 8 := Nat.sub_le _ _

/-- `drop = (h + n) div 8` and the bits of the new leading byte consumed are `(h + n) mod 8`, in the form the proofs of a
read use: the bytes dropped and the tail make up the bits passed over. -/
theorem State.readDrop_mul_add_tail (s : State) (n : Nat) :
    8 * s.readDrop n + s.readTail n = s.headReadBits + n := by
  unfold State.readDrop State.readTail State.readCount bytesNeeded
  split <;> omega

theorem State.readDrop_le (s : State) (n : Nat) : s.readDrop n ≤ s.readCount n := by
  unfold State.readDrop
  split <;> omega

/-! ### The merged number of a write -/

/-- The emitted number fits the bits it is emitted for (spec/40_bit_accounting.md R65). -/
theorem combine_lt (v f t n : Nat) : combine v f t n < 2 ^ (f + n) := Nat.mod_lt _ (Nat.two_pow_pos _)

/-- The bits of the emitted number: the reclaimed byte's below the fill, the operand's above it, none past `output_bits`. -/
theorem testBit_combine (v f t n i : Nat) :
    (combine v f t n).testBit i = (decide (i < f + n) && ((decide (f ≤ i) && v.testBit (i - f)) || t.testBit i)) := by
  simp [combine, Nat.testBit_mod_two_pow, Nat.testBit_or, Nat.testBit_shiftLeft]

/-! ### Each meaning: if it answers a next state, then one of these -/

theorem execWriteBits_next {w : StorageWidth} {n : Nat} {s t : State} (h : execWriteBits w n s = .next t) :
    (s.halted = true ∧ t = s.refuseHalted) ∨
    (s.halted = false ∧ w.bits < n ∧ t = s.raise .contractViolation) ∨
    (s.halted = false ∧ n ≤ w.bits ∧ n = 0 ∧ t = s.respond .ok) ∨
    (s.halted = false ∧ n ≤ w.bits ∧ 1 ≤ n ∧ withinCapacity s.cap (s.writeBase + s.writeCount n) = false ∧
      t = s.raise .capacityOverflow) ∨
    (s.halted = false ∧ n ≤ w.bits ∧ 1 ≤ n ∧ withinCapacity s.cap (s.writeBase + s.writeCount n) = true ∧
      ∃ b, s.reclaimedByte = some b ∧ t = (s.afterWrite n b).respond .ok) := by
  unfold execWriteBits at h
  split at h
  · next hh => exact .inl ⟨hh, by cases h; rfl⟩
  · next hh =>
    have hh : s.halted = false := by simpa using hh
    split at h
    · next hn => exact .inr (.inl ⟨hh, hn, by cases h; rfl⟩)
    · next hn =>
      have hn := Nat.le_of_not_lt hn
      split at h
      · next h0 => exact .inr (.inr (.inl ⟨hh, hn, h0, by cases h; rfl⟩))
      · next h0 =>
        have h0 := Nat.one_le_iff_ne_zero.2 h0
        split at h
        · next hc => exact .inr (.inr (.inr (.inl ⟨hh, hn, h0, hc, by cases h; rfl⟩)))
        · next hc =>
          split at h
          · next b hb => exact .inr (.inr (.inr (.inr ⟨hh, hn, h0, by simpa using hc, b, hb, by cases h; rfl⟩)))
          · cases h

theorem execReadBits_next {w : StorageWidth} {n : Nat} {s t : State} (h : execReadBits w n s = .next t) :
    (s.halted = true ∧ t = s.refuseHalted) ∨
    (s.halted = false ∧ (w.bits < n ∨ s.rfill = 0) ∧ t = s.raise .contractViolation) ∨
    (s.halted = false ∧ n ≤ w.bits ∧ s.rfill ≠ 0 ∧ s.rcnt < s.readCount n ∧ t = s.raise .boundsViolation) ∨
    (s.halted = false ∧ n ≤ w.bits ∧ s.rfill ≠ 0 ∧ s.readCount n ≤ s.rcnt ∧
      ∃ q, s.mem.readNat s.roff (s.readCount n) = some q ∧
        t = (s.afterRead n).respondValue (extractField q s.headReadBits n)) := by
  unfold execReadBits at h
  split at h
  · next hh => exact .inl ⟨hh, by cases h; rfl⟩
  · next hh =>
    have hh : s.halted = false := by simpa using hh
    split at h
    · next hn => exact .inr (.inl ⟨hh, .inl hn, by cases h; rfl⟩)
    · next hn =>
      have hn := Nat.le_of_not_lt hn
      split at h
      · next hr => exact .inr (.inl ⟨hh, .inr hr, by cases h; rfl⟩)
      · next hr =>
        split at h
        · next hk =>
          refine .inr (.inr (.inl ⟨hh, hn, hr, ?_, by cases h; rfl⟩))
          by_contra hle
          have := (Region.subspan2_eq_some_iff s.readRegion _ 0 (s.readCount n)).2
            ⟨by change 0 + s.readCount n ≤ s.rcnt; omega, rfl⟩
          rw [hk] at this; cases this
        · next r hk =>
          obtain ⟨hle, rfl⟩ := (Region.subspan2_eq_some_iff _ _ _ _).1 hk
          have hle : s.readCount n ≤ s.rcnt := by simpa [State.readRegion] using hle
          split at h
          · next q hq => exact .inr (.inr (.inr ⟨hh, hn, hr, hle, q, hq, by cases h; rfl⟩))
          · cases h

theorem execLoad_next {s t : State} (h : execLoad s = .next t) :
    (s.halted = true ∧ t = s.refuseHalted) ∨
    (s.halted = false ∧ withinCapacity s.cap s.lsrcLen = false ∧ t = s.raise .capacityOverflow) ∨
    (s.halted = false ∧ withinCapacity s.cap s.lsrcLen = true ∧ t = s.afterLoad.respond .ok) := by
  unfold execLoad at h
  split at h
  · next hh => exact .inl ⟨hh, by cases h; rfl⟩
  · next hh =>
    split at h
    · next hc => exact .inr (.inl ⟨by simpa using hh, hc, by cases h; rfl⟩)
    · next hc => exact .inr (.inr ⟨by simpa using hh, by simpa using hc, by cases h; rfl⟩)

theorem execStore_next {s t : State} (h : execStore s = .next t) :
    (s.halted = true ∧ t = s.refuseHalted) ∨
    (s.halted = false ∧ ∃ bs, s.mem.readBytes 0 s.len = some bs ∧ t = s.respondBytes bs) := by
  unfold execStore at h
  split at h
  · next hh => exact .inl ⟨hh, by cases h; rfl⟩
  · next hh =>
    split at h
    · next bs hb => exact .inr ⟨by simpa using hh, bs, hb, by cases h; rfl⟩
    · cases h

theorem execRewind_next {s t : State} (h : execRewind s = .next t) :
    (s.halted = true ∧ t = s.refuseHalted) ∨ (s.halted = false ∧ t = s.seekStart.respond .ok) := by
  unfold execRewind at h
  split at h
  · next hh => exact .inl ⟨hh, by cases h; rfl⟩
  · next hh => exact .inr ⟨by simpa using hh, by cases h; rfl⟩

/-- No command is refused by the model. -/
theorem exec_not_refused (i : Instr) (s : State) (r : Refusal) : exec i s ≠ .refused r := by
  cases i <;> simp only [exec, execWriteBits, execReadBits, execLoad, execStore, execRewind] <;> intro h <;>
    (repeat' split at h) <;> cases h

/-! ### The step: if it answers a next state, then one of these -/

theorem runCommand_next {c : CommandWord} {s t : State} (h : runCommand c s = .next t) :
    (s.halted = true ∧ t = s.refuseHalted) ∨
    (s.halted = false ∧ ∃ i, decode c = .ok i ∧ exec i s = .next t) ∨
    (s.halted = false ∧ ∃ e, decode c = .error e ∧ t = s.raise .illegalCommand) := by
  unfold runCommand at h
  split at h
  · next hh => exact .inl ⟨hh, by cases h; rfl⟩
  · next hh =>
    have hh : s.halted = false := by simpa using hh
    split at h
    · next i hi => exact .inr (.inl ⟨hh, i, hi, h⟩)
    · next e he => exact .inr (.inr ⟨hh, e, he, by cases h; rfl⟩)

theorem step_next {s t : State} (h : step s = .next t) :
    (s.input = [] ∧ t = s) ∨
    (∃ c v l rest, s.input = .command c v l :: rest ∧ runCommand c (s.present rest v l) = .next t) ∨
    (∃ rest, s.input = .reset :: rest ∧ t = s.resetInput rest) ∨
    (∃ k rest, s.input = .readStatus k :: rest ∧ t = s.readStatus rest k) := by
  unfold step at h
  split at h
  · next hi => exact .inl ⟨hi, by cases h; rfl⟩
  · next c v l rest hi => exact .inr (.inl ⟨c, v, l, rest, hi, h⟩)
  · next rest hi => exact .inr (.inr (.inl ⟨rest, hi, by cases h; rfl⟩))
  · next k rest hi => exact .inr (.inr (.inr ⟨k, rest, hi, by cases h; rfl⟩))

end Sys2Proof.Machine
end

