-- ==== Sys2Proof/Laws/PerInstr.lean ====
section
/-! SUPPORT. Statements about every command as syntax, one lemma per constructor of `Instr`. -/

namespace Sys2Proof

/-- Field `Z` is 0 in the word of every command (spec/30_encoding.md R52). -/
def Laws.ReservedFieldZero.Statement (i : Instr) : Prop := fieldZ (encode i) = 0

/-- The reserved field of a word of format C is 0, whatever its other fields hold. -/
theorem fieldZ_formatC (op : BitVec 4) (sz : BitVec 2) (n : BitVec 7) : fieldZ (formatC op sz n) = 0 := by
  apply BitVec.eq_of_getLsbD_eq
  intro i hi
  have h3 : i = 0 ∨ i = 1 ∨ i = 2 := by omega
  rcases h3 with rfl | rfl | rfl <;> simp [fieldZ, formatC]

theorem Laws.ReservedFieldZero.writeBits (w : StorageWidth) (n : Nat) :
    Laws.ReservedFieldZero.Statement (.writeBits w n) := fieldZ_formatC ..

theorem Laws.ReservedFieldZero.readBits (w : StorageWidth) (n : Nat) :
    Laws.ReservedFieldZero.Statement (.readBits w n) := fieldZ_formatC ..

theorem Laws.ReservedFieldZero.load : Laws.ReservedFieldZero.Statement .load := fieldZ_formatC ..

theorem Laws.ReservedFieldZero.store : Laws.ReservedFieldZero.Statement .store := fieldZ_formatC ..

theorem Laws.ReservedFieldZero.rewind : Laws.ReservedFieldZero.Statement .rewind := fieldZ_formatC ..

end Sys2Proof
end

