-- ==== Sys2Proof/Laws/Runs.lean ====
section
/-! SUPPORT. What the invariants of spec/10_state.md R16 give the rules they are cited in, and runs in two parts. -/

namespace Sys2Proof.Machine

/-- A partially filled trailing byte is a byte of the buffer (spec/41_write.md R74). -/
theorem State.one_le_len_of_partial {s : State} (h : s.Inv) (hp : s.trailingIsPartial) : 1 ≤ s.len := by
  obtain ⟨_, _, ⟨hb, _⟩, _⟩ := h
  have := hp.1
  by_contra h0
  have := hb.1 (by omega)
  omega

/-- The reclaimed byte is there and holds nothing above its fill (spec/10_state.md R16 item e). -/
theorem State.reclaimedByte_of_inv {s : State} (h : s.Inv) :
    ∃ t, s.reclaimedByte = some t ∧ t.toNat < 2 ^ s.writeFill := by
  unfold State.reclaimedByte State.writeFill
  by_cases hp : s.trailingIsPartial
  · rw [if_pos hp, if_pos hp]
    have hl := State.one_le_len_of_partial h hp
    have : (s.mem.read (s.len - 1)).isSome = true := (Memory.read_isSome_of_indices h.1 _).2 (by omega)
    obtain ⟨b, hb⟩ := Option.isSome_iff_exists.1 this
    have he := h.2.2.2.2.1 hp
    rw [hb] at he
    exact ⟨b, hb, he⟩
  · rw [if_neg hp, if_neg hp]
    exact ⟨0, rfl, by simp⟩

/-- The payload ends where the next write starts (spec/41_write.md R72). -/
theorem State.payloadBits_eq {s : State} (h : s.Inv) : s.payloadBits = 8 * s.writeBase + s.writeFill := by
  have hp := State.one_le_len_of_partial h
  obtain ⟨_, _, ⟨hb, _, h8, _⟩, _⟩ := h
  unfold State.payloadBits State.writeBase State.writeFill
  by_cases h0 : s.trailingIsPartial
  · have := hp h0
    rw [if_neg (by omega), if_pos h0, if_pos h0]
  · rw [if_neg h0, if_neg h0]
    by_cases hl : s.len = 0
    · simp [hl]
    · rw [if_neg hl]
      have : s.wfill.toNat ≠ 0 := fun hh => hl (hb.2 hh)
      simp only [State.trailingIsPartial] at h0
      omega

/-- A run in two parts. -/
theorem runTrace_append (j k : Nat) (s : State) :
    runTrace (j + k) s = (runTrace j s).bind fun p => (runTrace k p.1).map fun q => (q.1, p.2 ++ q.2) := by
  induction j generalizing s with
  | zero => simp [runTrace]
  | succ j ih =>
    rw [Nat.succ_add, runTrace, runTrace]
    cases h : step s with
    | next t =>
      simp only [ih]
      cases h2 : runTrace j t with
      | none => simp
      | some p =>
        simp
        cases h3 : runTrace k p.1 <;> simp
    | fault r => simp
    | refused r => simp

end Sys2Proof.Machine
end

