-- ==== Sys2Proof/Tests/Slice0.lean ====
section
/-! SUPPORT. Tests on fixed values. Words are written out bit by bit from spec/30_encoding.md R46; expected results are those
of spec/95_test_vectors.md. A theorem `witness_<Obligation>` shows a concrete state and operands that meet the hypotheses of
that statement, clause by clause, at values where the clauses meet. -/

namespace Sys2Proof.Tests
open Sys2Proof.Machine

/-! ### Small states -/

/-- An engine right after an OK LOAD of some bytes (spec/44_bulk_and_cursor.md R89). -/
def loaded (bs : List Byte) : State := { State.resetWith none with lsrc := bs }.afterLoad

/-- P4 after its first command: the 3 bits of 5 written to an empty buffer. -/
def threeBits : State := { State.resetWith none with mem := [(0, 0x05)], len := 1, wfill := 3, rcnt := 1, rfill := 3 }

/-- V2.2 after its first command, with room for 9 bytes: 7 bits written, the widest operand on `WDATA`. -/
def sevenBits : State :=
  { State.resetWith (some 9) with
    mem := [(0, 0x7F)], len := 1, wfill := 7, rcnt := 1, rfill := 7, wdata := 0xFEDCBA9876543210 }

/-- P5 after its fourth command: nine bytes, 7 bits of the first consumed. -/
def nineBytes : State := { loaded [0x7F, 0x08, 0x19, 0x2A, 0x3B, 0x4C, 0x5D, 0x6E, 0x7F] with wfill := 7, rfill := 1 }

/-- A state with a flag of `EFLAGS` set. -/
def flagged (e : Nibble) (s : State) : State := { s with eflags := e }

/-- P6 before its second command: `CAP` = 2 and a full buffer. -/
def fullAtTwo : State := { loaded [0xFF, 0xFF] with cap := some 2, wdata := 1, lsrc := [1, 2, 3] }

/-- The next state of an outcome; `s` where there is none. -/
def nextOr (s : State) : Host.Outcome State Fault Refusal → State
  | .next t => t
  | _ => s

def after (i : Instr) (s : State) : State := nextOr s (exec i s)

def afterWord (c : CommandWord) (s : State) : State := nextOr s (runCommand c s)

/-! ### Well-formed terms and words -/

theorem test_count_over_seven_bits_is_ill_formed :
    ¬ (Instr.writeBits .w64 128).WellFormed ∧ ¬ (Instr.readBits .w8 128).WellFormed := by decide

theorem test_counts_of_seven_bits_are_well_formed :
    (Instr.writeBits .w8 127).WellFormed ∧ (Instr.readBits .w64 0).WellFormed ∧ Instr.load.WellFormed ∧
    Instr.store.WellFormed ∧ Instr.rewind.WellFormed := by decide

theorem test_write_words :
    decode 0b0001_00_000_0000000 = .ok (.writeBits .w8 0) ∧ decode 0b0001_01_000_0001001 = .ok (.writeBits .w16 9) ∧
    decode 0b0001_10_000_0100000 = .ok (.writeBits .w32 32) ∧ decode 0b0001_11_000_1111111 = .ok (.writeBits .w64 127) := by
  decide

theorem test_read_words :
    decode 0b0010_00_000_0000011 = .ok (.readBits .w8 3) ∧ decode 0b0010_01_000_0001101 = .ok (.readBits .w16 13) ∧
    decode 0b0010_10_000_0100000 = .ok (.readBits .w32 32) ∧ decode 0b0010_11_000_1000000 = .ok (.readBits .w64 64) := by
  decide

theorem test_bulk_words :
    decode 0b0100_00_000_0000000 = .ok .load ∧ decode 0b0101_00_000_0000000 = .ok .store ∧
    decode 0b0110_00_000_0000000 = .ok .rewind := by decide

theorem test_illegal_words :
    decode 0b0000_00_000_0000000 = .error .noSuchCommand ∧ decode 0b0011_00_000_0000000 = .error .noSuchCommand ∧
    decode 0b0111_00_000_0000000 = .error .noSuchCommand ∧ decode 0b0001_00_111_0000000 = .error .reservedField ∧
    decode 0b0110_00_001_0000000 = .error .reservedField ∧ decode 0b0100_00_000_0000001 = .error .unusedField ∧
    decode 0b0101_01_000_0000000 = .error .unusedField := by decide

theorem test_table_words :
    decodeTableWord 16 0x1409 = some (.writeBits .w16 9) ∧ decodeTableWord 16 0x6000 = some .rewind ∧
    decodeTableWord 16 0x7000 = none := by decide

theorem test_line_of_write_bits :
    parseLine "WRITE_BITS.16 0x1FF, 9 ; tail".toList = .line (.writeBits .w16 0x1FF 9) ∧
    assemble (.writeBits .w16 0x1FF 9) = some (.command 0x1409 0x1FF []) := by decide

theorem test_line_of_load :
    parseLine ("LOAD ".toList ++ [Char.ofNat 123] ++ "0xF0, 15 , 3".toList ++ [Char.ofNat 125]) = .line (.load [0xF0, 15, 3]) ∧
    assemble (.load [0xF0, 15, 3]) = some (.command 0x4000 0 [0xF0, 15, 3]) := by decide

/-! ### One step of each command -/

/-- V2.2: 64 bits at fill 7. -/
theorem test_widest_write :
    (after (.writeBits .w64 64) sevenBits).stream =
      { mem := [(0, 0x7F), (1, 0x08), (2, 0x19), (3, 0x2A), (4, 0x3B), (5, 0x4C), (6, 0x5D), (7, 0x6E), (8, 0x7F)],
        len := 9, wfill := 7, roff := 0, rcnt := 9, rfill := 7 } := by decide

/-- P4, second command: 5 bits onto a first write of 3 leave the read cursor at 3. -/
theorem test_write_onto_a_boundary :
    (after (.writeBits .w8 5) { threeBits with wdata := 0x1F }).stream =
      { mem := [(0, 0xFD)], len := 1, wfill := 8, roff := 0, rcnt := 1, rfill := 3 } := by decide

/-- P5, fifth command: 64 bits at head offset 7, nine bytes. -/
theorem test_widest_read :
    (after (readAs .w64) nineBytes).response = some { status := .ok, rdata := some 0xFEDCBA9876543210, sdst := none } ∧
    (after (readAs .w64) nineBytes).roff = 8 ∧ (after (readAs .w64) nineBytes).rfill = 1 := by decide

/-- P3, third command: 5 bits with 4 left. -/
theorem test_read_past_the_region :
    (after (.readBits .w8 5) { loaded [0xF0, 0x0F] with roff := 1, rcnt := 1, rfill := 4 }).lastStatus = some .errBounds ∧
    (after (.readBits .w8 5) { loaded [0xF0, 0x0F] with roff := 1, rcnt := 1, rfill := 4 }).eflags = 2 := by decide

/-- V5.1, fourth command: an empty LOAD. -/
theorem test_empty_load :
    (after .load { loaded [0x12, 0x34, 0x05] with wfill := 3, lsrc := [] }).stream =
      { mem := [], len := 0, wfill := 0, roff := 0, rcnt := 0, rfill := 0 } := by decide

/-- P6, third command: a LOAD of three bytes with `CAP` = 2. -/
theorem test_load_over_capacity :
    (after .load fullAtTwo).lastStatus = some .errCapacity ∧ (after .load fullAtTwo).stream = fullAtTwo.stream ∧
    (after .load fullAtTwo).eflags = 4 := by decide

/-- V5.1, third command. -/
theorem test_store :
    (after .store { loaded [0x12, 0x34, 0x05] with wfill := 3 }).lastSdst = some [0x12, 0x34, 0x05] ∧
    (after .store { loaded [0x12, 0x34, 0x05] with wfill := 3 }).wfill = 3 := by decide

/-- P4, variant b. -/
theorem test_rewind_repairs_the_first_write :
    (after .rewind threeBits).rfill = 8 ∧ (after .rewind threeBits).wfill = 3 := by decide

/-- `withFetchWord` at reset: the very next step runs the word (V2.3, first line, with 0 on `WDATA`). -/
theorem test_fetched_word_runs :
    step (State.reset.withFetchWord 16 0x1008) = exec (.writeBits .w8 8) State.reset := rfl

/-! ### The hypotheses of the statements are met -/

theorem witness_DecodeOfEncodeIsIdentity : (Instr.writeBits .w64 127).WellFormed ∧ (Instr.readBits .w8 0).WellFormed := by
  decide

theorem witness_EncodeOfDecodedWord : decode 0x1C7F = .ok (.writeBits .w64 127) ∧ decode 0x6000 = .ok .rewind := by decide

theorem witness_DecoderFollowsItsPseudocode :
    (2 = (0x2C0B : CommandWord).toNat / 2 ^ 12 % 2 ^ 4 ∧ 3 = (0x2C0B : CommandWord).toNat / 2 ^ 10 % 2 ^ 2 ∧
      0 = (0x2C0B : CommandWord).toNat / 2 ^ 7 % 2 ^ 3 ∧ 11 = (0x2C0B : CommandWord).toNat % 2 ^ 7) ∧
    (flagged 8 (loaded [1])).halted = true := by decide

theorem witness_AssemblerTableWords : 2 ^ 64 - 1 < 2 ^ 64 ∧ 127 ≤ 127 := by decide

theorem witness_StepRunsTheDecodedCommand :
    (threeBits.withInput [.command 0x6000 0 [], .reset]).input = [.command 0x6000 0 [], .reset] ∧
    decode 0x6000 = .ok .rewind := by decide

theorem witness_HaltedEngineRefusesEveryWord :
    (flagged 1 (threeBits.withInput [.command 0xFFFF 7 [9]])).halted = true ∧
    (flagged 1 (threeBits.withInput [.command 0xFFFF 7 [9]])).input = [.command 0xFFFF 7 [9]] := by decide

theorem witness_HaltedIsPermanentUntilReset :
    (flagged 8 (threeBits.withInput [.readStatus 5])).halted = true ∧
    (flagged 8 (threeBits.withInput [.readStatus 5])).input = [.readStatus 5] ∧
    exec .store (flagged 1 threeBits) = .next (flagged 1 threeBits).refuseHalted := ⟨by decide, rfl, rfl⟩

/-- The premise of `State.staysHalted`: events without a reset, run to their end and past it, on a halted engine. -/
theorem witness_staysHalted :
    HostEvent.reset ∉ [HostEvent.command 0x6000 0 [], .readStatus 0] ∧
    (runTrace 3 ((flagged 1 threeBits).withInput [.command 0x6000 0 [], .readStatus 0])).isSome = true := by decide

theorem witness_ResetStateValues :
    State.reset = State.resetWith none ∧ State.resetWith (some 0) = State.resetWith (some 0) := by decide

theorem witness_ResetInputClearsEverything :
    (flagged 9 (threeBits.withInput [.reset, .readStatus 0])).input = [.reset, .readStatus 0] ∧
    (flagged 9 (threeBits.withInput [.reset, .readStatus 0])).halted = true ∧
    step (flagged 9 (threeBits.withInput [.reset, .readStatus 0])) =
      .next ((State.resetWith none).withInput [.readStatus 0]) ∧
    ((State.resetWith none).withInput [.readStatus 0]).halted = false := ⟨rfl, by decide, rfl, by decide⟩

theorem witness_StatusPortReadsTheRegisters :
    6 ≤ 6 ∧ (threeBits.withInput [.readStatus 4]).input = [.readStatus 4] := by decide

theorem witness_UnusedPortsAreIgnored : (∀ w n, Instr.load ≠ .writeBits w n) ∧ Instr.writeBits .w8 1 ≠ .load :=
  ⟨fun _ _ h => (by cases h), by decide⟩

theorem witness_BitAccountingIsExact : (1 ≤ 1 ∧ 1 ≤ 7) ∧ (1 ≤ 7 ∧ 7 ≤ 7) := by decide

theorem witness_ScratchIsWideEnough :
    64 ≤ 64 ∧ 1 ≤ nineBytes.rfill.toNat ∧
    nineBytes.mem.readNat nineBytes.roff (nineBytes.readCount 64) = some 0x7F6E5D4C3B2A19087F := by decide

theorem witness_RegionViewFailsClosed :
    Region.ValidFor { offset := 1, count := 3 } 4 ∧
    (3 ≤ 3 ∧ Region.subspan1 { offset := 1, count := 3 } 3 = some { offset := 4, count := 0 }) ∧ 3 < 4 ∧
    (1 + 2 ≤ 3 ∧ Region.subspan2 { offset := 1, count := 3 } 1 2 = some { offset := 2, count := 2 }) ∧ 3 < 2 + 2 := by decide

theorem witness_ReadingIgnoresBytesOutsideTheRegion :
    ∀ a, { loaded [0x11, 0x22] with roff := 1, rcnt := 1 }.roff ≤ a → a < 1 + 1 →
      Memory.read [(1, 0x22)] a = { loaded [0x11, 0x22] with roff := 1, rcnt := 1 }.mem.read a := by
  intro a h1 h2
  obtain rfl : a = 1 := Nat.le_antisymm (Nat.lt_succ_iff.1 h2) h1
  rfl

theorem witness_MemReadIsALittleEndianSum : (loaded [0x34, 0x12]).bufferIsDense ∧ 0 + 2 ≤ (loaded [0x34, 0x12]).len := by decide

theorem witness_MemReadIsAFieldOfTheBitString :
    (loaded [0x34, 0x12]).mem.readNat 0 2 = some 0x1234 ∧ 4 + 12 ≤ 8 * 2 := by decide

theorem witness_StepKeepsCanonicalMemory :
    (sevenBits.withInput [.command 0x1C40 5 []]).mem.wf ∧
    step (sevenBits.withInput [.command 0x1C40 5 []]) =
      .next (nextOr sevenBits (step (sevenBits.withInput [.command 0x1C40 5 []]))) := ⟨by decide, rfl⟩

/-- The widest write, at exactly its capacity, and a write of one bit to an empty buffer of one byte. -/
theorem witness_WriteBitsResult :
    (sevenBits.Inv ∧ sevenBits.halted = false ∧ 64 ≤ StorageWidth.w64.bits ∧ 1 ≤ 64 ∧
      7 = (if 1 ≤ sevenBits.wfill.toNat ∧ sevenBits.wfill.toNat ≤ 7 then sevenBits.wfill.toNat else 0) ∧
      0x7F = (if 1 ≤ sevenBits.wfill.toNat ∧ sevenBits.wfill.toNat ≤ 7 then
        ((sevenBits.mem.read (sevenBits.len - 1)).getD 0).toNat else 0) ∧
      0 = (if 1 ≤ sevenBits.wfill.toNat ∧ sevenBits.wfill.toNat ≤ 7 then sevenBits.len - 1 else sevenBits.len) ∧
      0x7F6E5D4C3B2A19087F = (sevenBits.wdata.toNat <<< 7 ||| 0x7F) % 2 ^ (7 + 64) ∧ 9 = bytesNeeded (7 + 64) ∧
      (∀ c, sevenBits.cap = some c → 0 + 9 ≤ c)) ∧
    ((State.resetWith (some 1)).Inv ∧ (State.resetWith (some 1)).halted = false ∧ 1 ≤ StorageWidth.w8.bits ∧
      1 = bytesNeeded (0 + 1) ∧ (∀ c, (State.resetWith (some 1)).cap = some c → 0 + 1 ≤ c)) := by
  refine ⟨⟨by decide, by decide, by decide, by decide, by decide, by decide, by decide, by decide, by decide, ?_⟩,
    by decide, by decide, by decide, by decide, ?_⟩
  all_goals
    intro c h
    cases h
    decide

theorem witness_WriteOfZeroBitsChangesNothing : (flagged 4 fullAtTwo).halted = false := by decide

theorem witness_FirstWriteEstablishesTheReadCursor :
    ((State.resetWith none).Inv ∧ (State.resetWith none).len = 0 ∧ 1 ≤ 1 ∧
      exec (.writeBits .w8 1) (State.resetWith none) = .next (after (.writeBits .w8 1) (State.resetWith none)) ∧
      (after (.writeBits .w8 1) (State.resetWith none)).lastStatus = some .ok) ∧
    (threeBits.len ≠ 0 ∧ exec (.writeBits .w8 5) threeBits = .next (after (.writeBits .w8 5) threeBits)) ∧
    exec (.writeBits .w8 0) (State.resetWith none) = .next (after (.writeBits .w8 0) (State.resetWith none)) :=
  ⟨⟨by decide, rfl, by decide, rfl, by decide⟩, ⟨by decide, rfl⟩, rfl⟩

theorem witness_WriteUsesOnlyTheLowBits :
    0x7F < 2 ^ 7 ∧ (0xFFFFFFFFFFFFFF05 : Value).toNat % 2 ^ 3 = { threeBits with wdata := 5 }.wdata.toNat % 2 ^ 3 ∧
    (8 ≤ StorageWidth.w8.bits ∧ 8 ≤ StorageWidth.w64.bits) ∧ withinCapacity (some 1) 1 = true := by decide

theorem witness_WriteAppendsToTheBitString :
    sevenBits.Inv ∧ exec (.writeBits .w64 64) sevenBits = .next (after (.writeBits .w64 64) sevenBits) ∧
    (after (.writeBits .w64 64) sevenBits).lastStatus = some .ok ∧
    (after (.writeBits .w64 64) sevenBits).payloadBits ≤ 71 ∧ 71 < 8 * (after (.writeBits .w64 64) sevenBits).len :=
  ⟨by decide, rfl, by decide, by decide, by decide⟩

theorem witness_RemergingAFullByteIsAppending :
    (loaded [0xAB]).mem.map Prod.fst = List.range 1 ∧ 1 ≤ 1 ∧ (loaded [0xAB]).mem.read (1 - 1) = some 0xAB := by decide

theorem witness_WriteBitsFrame :
    exec (.writeBits .w64 64) sevenBits = .next (after (.writeBits .w64 64) sevenBits) ∧ sevenBits.len ≠ 0 ∧
    (after (.writeBits .w64 64) sevenBits).lastStatus = some .ok ∧
    exec (.writeBits .w8 9) threeBits = .next (after (.writeBits .w8 9) threeBits) ∧
    (after (.writeBits .w8 9) threeBits).lastStatus ≠ some .ok ∧
    sevenBits.writeBase + sevenBits.writeCount 64 ≤ 9 := ⟨rfl, by decide, by decide, rfl, by decide, by decide⟩

theorem witness_WriteBitsFaults :
    (threeBits.halted = false ∧ StorageWidth.w8.bits < 9) ∧
    (fullAtTwo.halted = false ∧ 1 ≤ StorageWidth.w8.bits ∧ fullAtTwo.cap = some 2 ∧
      2 < fullAtTwo.writeBase + fullAtTwo.writeCount 1) ∧
    exec (.writeBits .w8 1) fullAtTwo = .next (after (.writeBits .w8 1) fullAtTwo) ∧
    (after (.writeBits .w8 5) threeBits).lastStatus = some .ok := ⟨by decide, by decide, rfl, by decide⟩

/-- The widest read, of exactly the bytes left. -/
theorem witness_ReadBitsResult :
    nineBytes.Inv ∧ nineBytes.halted = false ∧ 64 ≤ StorageWidth.w64.bits ∧ nineBytes.rfill ≠ 0 ∧
    7 = 8 - nineBytes.rfill.toNat ∧ 9 = bytesNeeded (64 + 7) ∧ 9 ≤ nineBytes.rcnt ∧ 7 = (7 + 64) % 8 := by decide

theorem witness_ReadReturnsTheNextField :
    (loaded [0x40]).Inv ∧ (loaded [0x40]).halted = false ∧ 9 ≤ StorageWidth.w16.bits ∧ (loaded [0x40]).rfill ≠ 0 ∧
    (loaded [0x40]).readPosition + 8 ≤ 8 * (loaded [0x40]).len ∧
    8 * (loaded [0x40]).len < (loaded [0x40]).readPosition + 9 := by decide

theorem witness_ReadValueHasNoHighBits :
    exec (.readBits .w32 3) (loaded [0xFF]) = .next (after (.readBits .w32 3) (loaded [0xFF])) ∧
    (after (.readBits .w32 3) (loaded [0xFF])).lastRdata = some 7 ∧
    (8 ≤ StorageWidth.w8.bits ∧ 8 ≤ StorageWidth.w64.bits) := ⟨rfl, by decide, by decide⟩

theorem witness_ReadOfZeroBits :
    ((loaded [0xA5]).Inv ∧ (loaded [0xA5]).halted = false ∧ (loaded [0xA5]).rfill ≠ 0) ∧
    ((State.resetWith none).halted = false ∧ (State.resetWith none).rfill = 0) := by decide

theorem witness_AlignedReadAsTakesWholeBytes :
    (loaded [0x34, 0x12]).Inv ∧ (loaded [0x34, 0x12]).halted = false ∧ (loaded [0x34, 0x12]).rfill = 8 ∧
    StorageWidth.w16.bits / 8 ≤ (loaded [0x34, 0x12]).rcnt := by decide

theorem witness_ReadBitsFrame :
    exec (readAs .w64) nineBytes = .next (after (readAs .w64) nineBytes) ∧
    (after (readAs .w64) nineBytes).lastStatus = some .ok ∧
    exec (.readBits .w16 9) (loaded [0x40]) = .next (after (.readBits .w16 9) (loaded [0x40])) ∧
    (after (.readBits .w16 9) (loaded [0x40])).lastStatus ≠ some .ok ∧ 2 ≤ 2 := ⟨rfl, by decide, rfl, by decide, by decide⟩

theorem witness_ReadBitsFaults :
    ((loaded [1]).halted = false ∧ StorageWidth.w8.bits < 9) ∧
    ((State.resetWith none).halted = false ∧ (State.resetWith none).rfill = 0) ∧
    ((loaded [0x40]).halted = false ∧ 9 ≤ StorageWidth.w16.bits ∧ (loaded [0x40]).rfill ≠ 0 ∧
      (loaded [0x40]).rcnt < bytesNeeded (9 + (8 - (loaded [0x40]).rfill.toNat))) ∧
    exec (.readBits .w8 8) (loaded [0x40]) = .next (after (.readBits .w8 8) (loaded [0x40])) ∧
    (after (.readBits .w8 8) (loaded [0x40])).lastStatus = some .ok := ⟨by decide, by decide, by decide, rfl, by decide⟩

/-- A LOAD of exactly `CAP` bytes. -/
theorem witness_LoadResult :
    { fullAtTwo with lsrc := [1, 2] }.halted = false ∧
    (∀ c, { fullAtTwo with lsrc := [1, 2] }.cap = some c → { fullAtTwo with lsrc := [1, 2] }.lsrc.length ≤ c) := by
  refine ⟨by decide, ?_⟩
  intro c h
  cases h
  decide

theorem witness_StoreResult :
    (threeBits.bufferIsDense ∧ threeBits.halted = false ∧ 0 < threeBits.len ∧ threeBits.Inv ∧ threeBits.trailingIsPartial) ∧
    (flagged 1 threeBits).halted = true := by decide

theorem witness_RewindResult :
    (threeBits.halted = false ∧ 1 ≤ threeBits.len ∧ exec .rewind threeBits = .next (after .rewind threeBits)) ∧
    (flagged 1 threeBits).halted = true := ⟨⟨by decide, by decide, rfl⟩, by decide⟩

theorem witness_BulkCommandsFrame :
    (exec .load fullAtTwo = .next (after .load fullAtTwo) ∧ (after .load fullAtTwo).lastStatus ≠ some .ok) ∧
    (exec .load (loaded [1]) = .next (after .load (loaded [1])) ∧ (loaded [1]).lsrc.length ≤ 1 ∧
      (after .load (loaded [1])).lastStatus = some .ok) ∧
    exec .store threeBits = .next (after .store threeBits) ∧ exec .rewind threeBits = .next (after .rewind threeBits) :=
  ⟨⟨rfl, by decide⟩, ⟨rfl, by decide, by decide⟩, rfl, rfl⟩

theorem witness_BulkCommandsFaults :
    (fullAtTwo.halted = false ∧ fullAtTwo.cap = some 2 ∧ 2 < fullAtTwo.lsrc.length) ∧
    exec .load fullAtTwo = .next (after .load fullAtTwo) ∧
    (exec .store threeBits = .next (after .store threeBits) ∧ threeBits.halted = false) ∧
    exec .rewind threeBits = .next (after .rewind threeBits) ∧ (flagged 8 threeBits).halted = true :=
  ⟨by decide, rfl, ⟨rfl, by decide⟩, rfl, by decide⟩

theorem witness_StoreThenLoadMovesTheBuffer :
    threeBits.Inv ∧ threeBits.halted = false ∧ exec .store threeBits = .next (after .store threeBits) ∧
    (after .store threeBits).lastSdst = some [0x05] ∧ { fullAtTwo with lsrc := [0x05] }.halted = false ∧
    withinCapacity { fullAtTwo with lsrc := [0x05] }.cap [(0x05 : Byte)].length = true ∧ 1 ≤ threeBits.len ∧
    threeBits.payloadBits ≤ 3 ∧ 3 < 8 * 1 :=
  ⟨by decide, by decide, rfl, by decide, by decide, by decide, by decide, by decide, by decide⟩

theorem witness_LoadedElementReadsBack :
    (loaded [0x34, 0x12]).halted = false ∧
    (loaded [0x34, 0x12]).lsrc = (List.range (StorageWidth.w16.bits / 8)).map (fun i => BitVec.ofNat 8 (0x1234 >>> (8 * i))) ∧
    withinCapacity (loaded [0x34, 0x12]).cap (StorageWidth.w16.bits / 8) = true ∧
    exec .load (loaded [0x34, 0x12]) = .next (after .load (loaded [0x34, 0x12])) := ⟨by decide, by decide, by decide, rfl⟩

/-- Every status is some command's, on an engine that is not halted but for the last. -/
theorem witness_StatusCodeTable :
    (runCommand 0x6000 threeBits = .next (afterWord 0x6000 threeBits) ∧ threeBits.halted = false ∧
      (afterWord 0x6000 threeBits).lastStatus = some .ok) ∧
    (afterWord 0x1009 threeBits).lastStatus = some .errContract ∧ (afterWord 0x2409 threeBits).lastStatus = some .errBounds ∧
    (afterWord 0x1001 fullAtTwo).lastStatus = some .errCapacity ∧ (afterWord 0x0000 threeBits).lastStatus = some .errIllegal ∧
    (afterWord 0x0000 (flagged 1 threeBits)).lastStatus = some .errHalted :=
  ⟨⟨rfl, by decide, by decide⟩, by decide, by decide, by decide, by decide, by decide⟩

/-- Each cause: a write and a read with a count one too many, and a read of a cursor never established. -/
theorem witness_ContractViolationCauses :
    (runCommand 0x1009 threeBits = .next (afterWord 0x1009 threeBits) ∧ decode 0x1009 = .ok (.writeBits .w8 9) ∧
      StorageWidth.w8.bits < 9 ∧ (afterWord 0x1009 threeBits).lastStatus = some .errContract) ∧
    (afterWord 0x2009 threeBits).lastStatus = some .errContract ∧
    (afterWord 0x2000 (State.resetWith none)).lastStatus = some .errContract :=
  ⟨⟨rfl, by decide, by decide, by decide⟩, by decide, by decide⟩

theorem witness_BoundsViolationCause :
    runCommand 0x2409 (loaded [0x40]) = .next (afterWord 0x2409 (loaded [0x40])) ∧
    decode 0x2409 = .ok (.readBits .w16 9) ∧ 9 ≤ StorageWidth.w16.bits ∧ (loaded [0x40]).rfill ≠ 0 ∧
    (loaded [0x40]).rcnt < bytesNeeded (9 + (8 - (loaded [0x40]).rfill.toNat)) ∧
    (afterWord 0x2409 (loaded [0x40])).lastStatus = some .errBounds :=
  ⟨rfl, by decide, by decide, by decide, by decide, by decide⟩

theorem witness_CapacityOverflowCauses :
    (runCommand 0x1001 fullAtTwo = .next (afterWord 0x1001 fullAtTwo) ∧ fullAtTwo.halted = false ∧ fullAtTwo.cap = some 2 ∧
      decode 0x1001 = .ok (.writeBits .w8 1) ∧ 2 < fullAtTwo.writeBase + fullAtTwo.writeCount 1 ∧
      (afterWord 0x1001 fullAtTwo).lastStatus = some .errCapacity) ∧
    (decode 0x4000 = .ok .load ∧ 2 < fullAtTwo.lsrc.length ∧ (afterWord 0x4000 fullAtTwo).lastStatus = some .errCapacity) ∧
    threeBits.cap = none := ⟨⟨rfl, by decide, by decide, by decide, by decide, by decide⟩, by decide, by decide⟩

theorem witness_IllegalWordHaltsTheEngine :
    (threeBits.withInput [.command 0x1080 0 []]).halted = false ∧
    (threeBits.withInput [.command 0x1080 0 []]).input = [.command 0x1080 0 []] ∧
    decode 0x1080 = .error .reservedField ∧ (∀ i, decode 0x1080 ≠ .ok i) := by
  refine ⟨by decide, by decide, by decide, fun i h => ?_⟩
  rw [show decode 0x1080 = .error .reservedField by decide] at h
  cases h

theorem witness_FaultEntryIsPrecise :
    (runCommand 0x1001 fullAtTwo = .next (afterWord 0x1001 fullAtTwo) ∧
      (afterWord 0x1001 fullAtTwo).lastStatus = some FaultClass.capacityOverflow.status) ∧
    (step (flagged 2 (threeBits.withInput [.reset])) = .next (State.resetWith none) ∧
      (flagged 2 (threeBits.withInput [.reset])).eflags.getLsbD 1 = true ∧
      (State.resetWith none).eflags.getLsbD 1 = false) ∧
    (step (threeBits.withInput [.command 0x7000 0 []]) =
        .next (nextOr threeBits (step (threeBits.withInput [.command 0x7000 0 []]))) ∧
      (threeBits.withInput [.command 0x7000 0 []]).eflags.getLsbD 3 = false ∧
      (nextOr threeBits (step (threeBits.withInput [.command 0x7000 0 []]))).eflags.getLsbD 3 = true) :=
  ⟨⟨rfl, by decide⟩, ⟨rfl, by decide, by decide⟩, rfl, by decide, by decide⟩

theorem witness_DataOnlyInAnOkResponse :
    (runCommand 0x2008 (loaded [0x40]) = .next (afterWord 0x2008 (loaded [0x40])) ∧
      (afterWord 0x2008 (loaded [0x40])).lastRdata = some 0x40) ∧
    (runCommand 0x5000 (loaded [0x40]) = .next (afterWord 0x5000 (loaded [0x40])) ∧
      (afterWord 0x5000 (loaded [0x40])).lastSdst = some [0x40]) := ⟨⟨rfl, by decide⟩, rfl, by decide⟩

theorem witness_OneResponseByPriority : nineBytes.Inv ∧ fullAtTwo.Inv ∧ (flagged 9 sevenBits).Inv := by decide

theorem witness_OnlyWritesAndLoadsChangeTheBuffer :
    exec .rewind threeBits = .next (after .rewind threeBits) ∧ Instr.rewind ≠ .load ∧
    (exec (.writeBits .w8 8) (loaded [1, 2]) = .next (after (.writeBits .w8 8) (loaded [1, 2])) ∧
      ¬ (loaded [1, 2]).trailingIsPartial ∧ 0 + 1 < (loaded [1, 2]).len ∧ 1 < (loaded [1, 2]).len) ∧
    (exec .load (loaded [1]) = .next (after .load (loaded [1])) ∧ (after .load (loaded [1])).lastStatus = some .ok) :=
  ⟨rfl, by decide, ⟨rfl, by decide, by decide, by decide⟩, rfl, by decide⟩

theorem witness_StepKeepsTheInvariants :
    (sevenBits.withInput [.command 0x1C40 5 []]).Inv ∧
    step (sevenBits.withInput [.command 0x1C40 5 []]) =
      .next (nextOr sevenBits (step (sevenBits.withInput [.command 0x1C40 5 []]))) := ⟨by decide, rfl⟩

theorem witness_InvariantsHoldInEveryReachableState :
    (1 ≤ threeBits.wfill.toNat ∧ threeBits.wfill.toNat ≤ 7 ∧ 1 ≤ threeBits.len) ∧
    ({ loaded [9] with roff := 1, rcnt := 0 }.rcnt = 0 ∧ 1 ≤ { loaded [9] with roff := 1, rcnt := 0 }.len) := by decide

theorem witness_StepAlwaysAnswers : (nineBytes.withInput [.command 0x2C40 0 []]).Inv := by decide

/-- P4's two fields, with room for exactly their one byte. -/
theorem witness_WritesConcatenateTheFields :
    (∀ f ∈ [BitField.mk .w8 5 3, BitField.mk .w8 0x1F 5], f.bits ≤ f.width.bits) ∧
    withinCapacity (some 1) (bytesNeeded (fieldsWidth [BitField.mk .w8 5 3, BitField.mk .w8 0x1F 5])) = true := by decide

theorem witness_RoundTripAfterRewind :
    (∀ f ∈ [BitField.mk .w8 5 3, BitField.mk .w8 0x1F 5], f.bits ≤ f.width.bits) ∧
    1 ≤ fieldsWidth [BitField.mk .w8 5 3, BitField.mk .w8 0x1F 5] ∧
    withinCapacity (some 1) (bytesNeeded (fieldsWidth [BitField.mk .w8 5 3, BitField.mk .w8 0x1F 5])) = true := by decide

/-- The smallest first field, 8 bits, after a field of none. -/
theorem witness_RoundTripOfAWideFirstField :
    (∀ f ∈ [BitField.mk .w64 9 0], f.bits = 0) ∧ 8 ≤ (BitField.mk .w8 0xAB 8).bits ∧
    (∀ f ∈ [BitField.mk .w8 0xAB 8, BitField.mk .w8 5 3], f.bits ≤ f.width.bits) ∧
    withinCapacity (some 2) (bytesNeeded (fieldsWidth [BitField.mk .w8 0xAB 8, BitField.mk .w8 5 3])) = true := by decide

end Sys2Proof.Tests
end

/-! What the commands do to the stream registers, the invariants of spec/10_state.md R16 along every step, and the
statements of that chapter they settle. -/

namespace Sys2Proof.Machine

/-! ### Reset and the status port -/

@[simp] theorem State.reset_eq_resetWith : State.reset = State.resetWith Config.resetCap := rfl

/-- Settles O11: `State.reset` is `State.resetWith` of one `CAP`, and each field of that is given by its `resetWith` law. -/
theorem resetStateValues : Obligations.ResetStateValues := by
  rintro cap s (rfl | rfl)
  · simp
  · simp

/-- Numbers 6 and above name no status register (spec/10_state.md R19). -/
theorem State.statusRegister_of_six_le (s : State) {k : Nat} (hk : 6 ≤ k) : s.statusRegister k = 0 := by
  obtain ⟨j, rfl⟩ := Nat.exists_eq_add_of_le' hk
  rfl

theorem State.statusRegister_resetWith (cap : Capacity) (k : Nat) : (State.resetWith cap).statusRegister k = 0 := by
  match k with
  | 0 | 1 | 2 | 3 | 4 | 5 => rfl
  | j + 6 => exact State.statusRegister_of_six_le _ (Nat.le_add_left 6 j)

theorem step_readStatus {s : State} {k : Nat} {rest : List HostEvent} (h : s.input = .readStatus k :: rest) :
    step s = .next (s.readStatus rest k) := by
  simp only [step, h]

/-- Settles O13: the six registers by definition, the numbers above them and the reset state by the two lemmas before it,
and the step of a status read. -/
theorem statusPortReadsTheRegisters : Obligations.StatusPortReadsTheRegisters :=
  ⟨fun s => ⟨rfl, rfl, rfl, rfl, rfl, rfl, fun _ => s.statusRegister_of_six_le⟩,
    State.statusRegister_resetWith, fun _ _ _ h => step_readStatus h⟩

/-! ### What each command can do to the stream registers -/

theorem State.stream_eq_iff {s t : State} : t.stream = s.stream ↔
    t.mem = s.mem ∧ t.len = s.len ∧ t.wfill = s.wfill ∧ t.roff = s.roff ∧ t.rcnt = s.rcnt ∧ t.rfill = s.rfill := by
  simp only [State.stream, Stream.mk.injEq]

theorem execWriteBits_stream {w : StorageWidth} {n : Nat} {s t : State} (h : execWriteBits w n s = .next t) :
    t.stream = s.stream ∨
    (1 ≤ n ∧ withinCapacity s.cap (s.writeBase + s.writeCount n) = true ∧
      ∃ b, s.reclaimedByte = some b ∧ t.stream = (s.afterWrite n b).stream) := by
  rcases execWriteBits_next h with ⟨_, rfl⟩ | ⟨_, _, rfl⟩ | ⟨_, _, _, rfl⟩ | ⟨_, _, _, _, rfl⟩ | ⟨_, _, hn, hc, b, hb, rfl⟩
  case inr.inr.inr.inr => exact .inr ⟨hn, hc, b, hb, rfl⟩
  all_goals exact .inl rfl

theorem execReadBits_stream {w : StorageWidth} {n : Nat} {s t : State} (h : execReadBits w n s = .next t) :
    t.stream = s.stream ∨
    (s.rfill ≠ 0 ∧ s.readCount n ≤ s.rcnt ∧ t.stream = (s.afterRead n).stream) := by
  rcases execReadBits_next h with ⟨_, rfl⟩ | ⟨_, _, rfl⟩ | ⟨_, _, _, _, rfl⟩ | ⟨_, _, hr, hk, q, _, rfl⟩
  case inr.inr.inr => exact .inr ⟨hr, hk, rfl⟩
  all_goals exact .inl rfl

theorem execLoad_stream {s t : State} (h : execLoad s = .next t) :
    t.stream = s.stream ∨ (withinCapacity s.cap s.lsrcLen = true ∧ t.stream = s.afterLoad.stream) := by
  rcases execLoad_next h with ⟨_, rfl⟩ | ⟨_, _, rfl⟩ | ⟨_, hc, rfl⟩
  · exact .inl rfl
  · exact .inl rfl
  · exact .inr ⟨hc, rfl⟩

theorem execStore_stream {s t : State} (h : execStore s = .next t) : t.stream = s.stream := by
  rcases execStore_next h with ⟨_, rfl⟩ | ⟨_, bs, _, rfl⟩ <;> rfl

theorem execRewind_stream {s t : State} (h : execRewind s = .next t) :
    t.stream = s.stream ∨ t.stream = s.seekStart.stream := by
  rcases execRewind_next h with ⟨_, rfl⟩ | ⟨_, rfl⟩
  · exact .inl rfl
  · exact .inr rfl

/-- No command writes `CAP`, the ports, the status port or the host's list. -/
theorem exec_hostSide {i : Instr} {s t : State} (h : exec i s = .next t) : t.hostSide = s.hostSide := by
  cases i with
  | writeBits w n =>
    rcases execWriteBits_next h with ⟨_, rfl⟩ | ⟨_, _, rfl⟩ | ⟨_, _, _, rfl⟩ | ⟨_, _, _, _, rfl⟩ | ⟨_, _, _, _, b, _, rfl⟩ <;>
      rfl
  | readBits w n =>
    rcases execReadBits_next h with ⟨_, rfl⟩ | ⟨_, _, rfl⟩ | ⟨_, _, _, _, rfl⟩ | ⟨_, _, _, _, q, _, rfl⟩ <;> rfl
  | load => rcases execLoad_next h with ⟨_, rfl⟩ | ⟨_, _, rfl⟩ | ⟨_, _, rfl⟩ <;> rfl
  | store => rcases execStore_next h with ⟨_, rfl⟩ | ⟨_, bs, _, rfl⟩ <;> rfl
  | rewind => rcases execRewind_next h with ⟨_, rfl⟩ | ⟨_, rfl⟩ <;> rfl

theorem exec_cap {i : Instr} {s t : State} (h : exec i s = .next t) : t.cap = s.cap :=
  congrArg HostSide.cap (exec_hostSide h)

theorem runCommand_cap {c : CommandWord} {s t : State} (h : runCommand c s = .next t) : t.cap = s.cap := by
  rcases runCommand_next h with ⟨_, rfl⟩ | ⟨_, i, _, hi⟩ | ⟨_, e, _, rfl⟩
  · rfl
  · exact exec_cap hi
  · rfl

/-- `CAP` is a parameter: no step writes it (spec/10_state.md R23). -/
theorem step_cap {s t : State} (h : step s = .next t) : t.cap = s.cap := by
  rcases step_next h with ⟨_, rfl⟩ | ⟨c, v, l, rest, _, hc⟩ | ⟨rest, _, rfl⟩ | ⟨k, rest, _, rfl⟩
  · rfl
  · exact (runCommand_cap hc).trans (s.present_cap rest v l)
  · rfl
  · rfl

/-! ### The buffer under a write, a load and a read -/

/-- A write starts no earlier than at the last byte. -/
theorem State.len_le_writeBase_succ (s : State) : s.len ≤ s.writeBase + 1 := by
  unfold State.writeBase
  split <;> omega

theorem State.writeBase_of_not_partial {s : State} (h : ¬ s.trailingIsPartial) : s.writeBase = s.len := if_neg h

/-- A write leaves every byte before its base as it was. -/
theorem State.afterWrite_read_of_lt (s : State) (n : Nat) (b : Byte) {a : Nat} (ha : a < s.writeBase) :
    (s.afterWrite n b).mem.read a = s.mem.read a := by
  rw [State.afterWrite_mem, Memory.read_writeNat, if_neg (by omega)]

theorem State.afterWrite_dense {s : State} (h : s.bufferIsDense) {n : Nat} (hn : 1 ≤ n) (b : Byte) :
    (s.afterWrite n b).bufferIsDense :=
  Memory.indices_writeNat h _ s.writeBase_le (s.len_le_afterWrite n hn)

theorem State.afterLoad_dense (s : State) : s.afterLoad.bufferIsDense := by
  rw [State.bufferIsDense, State.afterLoad_mem, Memory.ofBytes_indices, List.range_eq_range']
  rfl

theorem State.bufferIsDense.congr {s t : State} (h : s.bufferIsDense) (hmem : t.mem = s.mem) (hlen : t.len = s.len) :
    t.bufferIsDense := by
  rw [State.bufferIsDense, hmem, hlen]
  exact h

/-- READ_BITS, STORE and REWIND change neither a byte nor `LEN` (spec/10_state.md R11). -/
theorem exec_buffer_frame {i : Instr} {s t : State} (hi : (∃ w n, i = .readBits w n) ∨ i = .store ∨ i = .rewind)
    (h : exec i s = .next t) : t.mem = s.mem ∧ t.len = s.len := by
  rcases hi with ⟨w, n, rfl⟩ | rfl | rfl
  · rcases execReadBits_stream h with hs | ⟨_, _, hs⟩ <;>
      obtain ⟨hmem, hlen, _⟩ := State.stream_eq_iff.1 hs <;> exact ⟨hmem, hlen⟩
  · obtain ⟨hmem, hlen, _⟩ := State.stream_eq_iff.1 (execStore_stream h)
    exact ⟨hmem, hlen⟩
  · rcases execRewind_stream h with hs | hs <;>
      obtain ⟨hmem, hlen, _⟩ := State.stream_eq_iff.1 hs <;> exact ⟨hmem, hlen⟩

/-- `LEN` falls only in a LOAD, and no command leaves a gap below it. -/
theorem exec_len_and_density {i : Instr} {s t : State} (h : exec i s = .next t) :
    (i ≠ .load → s.len ≤ t.len) ∧ (s.bufferIsDense → t.bufferIsDense) := by
  have of_frame (hf : t.mem = s.mem ∧ t.len = s.len) :
      (i ≠ .load → s.len ≤ t.len) ∧ (s.bufferIsDense → t.bufferIsDense) :=
    ⟨fun _ => hf.2.ge, fun hd => hd.congr hf.1 hf.2⟩
  cases i with
  | writeBits w n =>
    rcases execWriteBits_stream h with hs | ⟨hn, _, b, _, hs⟩ <;> obtain ⟨hmem, hlen, _⟩ := State.stream_eq_iff.1 hs
    · exact of_frame ⟨hmem, hlen⟩
    · exact ⟨fun _ => hlen ▸ s.len_le_afterWrite n hn, fun hd => (State.afterWrite_dense hd hn b).congr hmem hlen⟩
  | readBits w n => exact of_frame (exec_buffer_frame (.inl ⟨w, n, rfl⟩) h)
  | load =>
    rcases execLoad_stream h with hs | ⟨_, hs⟩ <;> obtain ⟨hmem, hlen, _⟩ := State.stream_eq_iff.1 hs
    · exact of_frame ⟨hmem, hlen⟩
    · exact ⟨fun hne => absurd rfl hne, fun _ => s.afterLoad_dense.congr hmem hlen⟩
  | store => exact of_frame (exec_buffer_frame (.inr (.inl rfl)) h)
  | rewind => exact of_frame (exec_buffer_frame (.inr (.inr rfl)) h)

theorem execWriteBits_read_of_lt {w : StorageWidth} {n : Nat} {s t : State} (h : execWriteBits w n s = .next t) {a : Nat}
    (ha : a < s.writeBase) : t.mem.read a = s.mem.read a := by
  rcases execWriteBits_stream h with hs | ⟨_, _, b, _, hs⟩ <;> obtain ⟨hmem, _⟩ := State.stream_eq_iff.1 hs <;> rw [hmem]
  exact s.afterWrite_read_of_lt n b ha

/-- An OK LOAD leaves the bytes on `LSRC` and no other (spec/44_bulk_and_cursor.md R89). -/
theorem execLoad_read_of_ok {s t : State} (h : execLoad s = .next t) (hok : t.lastStatus = some .ok) (a : Nat) :
    t.mem.read a = s.lsrc[a]? := by
  rcases execLoad_next h with ⟨_, rfl⟩ | ⟨_, _, rfl⟩ | ⟨_, _, rfl⟩
  · simp [State.lastStatus] at hok
  · simp [State.lastStatus, FaultClass.status] at hok
  · simp [Memory.read_ofBytes]

/-- A read moves the front of the read region forward and leaves its end where it was. -/
theorem execReadBits_narrows {w : StorageWidth} {n : Nat} {s t : State} (h : execReadBits w n s = .next t) :
    s.roff ≤ t.roff ∧ t.rcnt ≤ s.rcnt ∧ t.roff + t.rcnt = s.roff + s.rcnt := by
  rcases execReadBits_stream h with hs | ⟨_, hk, hs⟩ <;> obtain ⟨_, _, _, hroff, hrcnt, _⟩ := State.stream_eq_iff.1 hs <;>
    rw [hroff, hrcnt]
  · exact ⟨le_rfl, le_rfl, rfl⟩
  · have hd := s.readDrop_le n
    rw [State.afterRead_roff, State.afterRead_rcnt]
    omega

/-- Settles O53, clause by clause from what each command can do to the stream registers. -/
theorem onlyWritesAndLoadsChangeTheBuffer : Obligations.OnlyWritesAndLoadsChangeTheBuffer := by
  refine ⟨fun i s t h => exec_len_and_density h, fun w n s t h => ⟨fun a ha => ?_, fun hp a ha => ?_⟩,
    fun s t h hok a => execLoad_read_of_ok h hok a, fun i s t hi h => exec_buffer_frame hi h,
    fun w n s t h => execReadBits_narrows h⟩
  · have := s.len_le_writeBase_succ
    exact execWriteBits_read_of_lt h (by omega)
  · exact execWriteBits_read_of_lt h (State.writeBase_of_not_partial hp ▸ ha)

/-! ### The invariants of spec/10_state.md R16 along every step -/

/-- The invariants speak of the stream registers, the buffer and `CAP` alone. -/
theorem State.Inv.congr {s t : State} (h : s.Inv) (hs : t.stream = s.stream) (hc : t.cap = s.cap) : t.Inv := by
  cases s
  cases t
  obtain ⟨rfl, rfl, rfl, rfl, rfl, rfl⟩ := State.stream_eq_iff.1 hs
  cases hc
  exact h

theorem withinCapacity_zero (cap : Capacity) : withinCapacity cap 0 = true := by
  cases cap <;> simp [withinCapacity]

/-- An empty buffer with both fills 0 has the invariants. -/
theorem State.resetWith_inv (cap : Capacity) : (State.resetWith cap).Inv :=
  ⟨rfl, rfl, by simp [State.fillsMatchLength], withinCapacity_zero cap, fun hp => absurd hp.1 (by simp),
    fun _ hl => absurd hl (by simp)⟩

theorem alignedFill_of_pos {len : Nat} (h : 1 ≤ len) : (alignedFill len).toNat = 8 := by
  rw [alignedFill, if_pos h]
  rfl

theorem alignedFill_le (len : Nat) : (alignedFill len).toNat ≤ 8 := by
  unfold alignedFill
  split <;> decide

theorem eq_zero_iff_alignedFill (len : Nat) : len = 0 ↔ (alignedFill len).toNat = 0 := by
  unfold alignedFill
  split
  · next h => exact iff_of_false (by omega) (by decide)
  · next h => exact iff_of_true (by omega) rfl

theorem State.seekStart_inv {s : State} (h : s.Inv) : s.seekStart.Inv := by
  obtain ⟨hdense, _, ⟨hw, _, hw8, _⟩, hcap, hpad, _⟩ := h
  exact ⟨hdense, Nat.zero_add _, ⟨hw, eq_zero_iff_alignedFill _, hw8, alignedFill_le _⟩, hcap, hpad,
    fun _ hl => alignedFill_of_pos hl⟩

/-- A load leaves no partially filled byte, so its padding is zero whatever the bytes are. -/
theorem State.afterLoad_not_partial (s : State) : ¬ s.afterLoad.trailingIsPartial := by
  rintro ⟨h1, h7⟩
  rw [State.afterLoad_wfill] at h1 h7
  have hpos : 1 ≤ s.lsrcLen := by
    have := eq_zero_iff_alignedFill s.lsrcLen
    omega
  rw [alignedFill_of_pos hpos] at h7
  omega

theorem State.afterLoad_inv {s : State} (hc : withinCapacity s.cap s.lsrcLen = true) : s.afterLoad.Inv := by
  have hempty := eq_zero_iff_alignedFill s.lsrcLen
  have hle := alignedFill_le s.lsrcLen
  exact ⟨s.afterLoad_dense, Nat.zero_add _, ⟨hempty, hempty, hle, hle⟩, hc, fun hp => absurd hp s.afterLoad_not_partial,
    fun _ hl => alignedFill_of_pos hl⟩

/-- `RFILL` after a read (spec/42_read.md R76, step 6), without the case of a byte boundary. -/
theorem State.toNat_rfillAfterRead (s : State) (n : Nat) : (s.rfillAfterRead n).toNat = 8 - s.readTail n := by
  unfold State.rfillAfterRead
  split
  · next h => rw [h]; rfl
  · rw [BitVec.toNat_ofNat]; omega

/-- A read that takes the whole read region ends on a byte boundary. -/
theorem State.readTail_of_drained {s : State} {n : Nat} (hk : s.readCount n ≤ s.rcnt) (hd : s.rcnt ≤ s.readDrop n) :
    s.readTail n = 0 := by
  have htotal := s.readDrop_mul_add_tail n
  have hbound : n + s.headReadBits ≤ 8 * s.readCount n := le_eight_mul_bytesNeeded _
  omega

theorem State.afterRead_inv {s : State} (h : s.Inv) {n : Nat} (hr : s.rfill ≠ 0) (hk : s.readCount n ≤ s.rcnt) :
    (s.afterRead n).Inv := by
  obtain ⟨hdense, hregion, ⟨hw, hrf, hw8, _⟩, hcap, hpad, _⟩ := h
  have hdrop := s.readDrop_le n
  have hfill := s.toNat_rfillAfterRead n
  have htail : s.readTail n < 8 := Nat.mod_lt _ (by omega)
  have hlen : s.len ≠ 0 := fun h0 => hr (BitVec.eq_of_toNat_eq (hrf.1 h0))
  refine ⟨hdense, ?_, ⟨hw, ?_, hw8, ?_⟩, hcap, hpad, fun hdrained _ => ?_⟩
  · change s.roff + s.readDrop n + (s.rcnt - s.readDrop n) = s.len
    omega
  · rw [State.afterRead_len, State.afterRead_rfill]
    omega
  · rw [State.afterRead_rfill]
    omega
  · rw [State.afterRead_rcnt] at hdrained
    rw [State.afterRead_rfill, hfill, State.readTail_of_drained hk (by omega)]

theorem State.toNat_rfillAfterWrite (s : State) (n : Nat) :
    (s.rfillAfterWrite n).toNat = if s.len = 0 then min (s.writeFill + n) 8 else s.rfill.toNat := by
  unfold State.rfillAfterWrite
  split
  · rw [BitVec.toNat_ofNat]; omega
  · rfl

/-- The last byte a write emits holds nothing above the new fill (spec/10_state.md R16 item e). -/
theorem State.afterWrite_last_byte (s : State) {n : Nat} (hn : 1 ≤ n) (t : Byte) :
    ∃ b, (s.afterWrite n t).mem.read ((s.afterWrite n t).len - 1) = some b ∧
      b.toNat < 2 ^ (s.afterWrite n t).wfill.toNat := by
  have hk := s.writeCount_pos n hn
  have hbits : 8 * (s.writeCount n - 1) + fillOf (s.writeFill + n) = s.writeFill + n := fillOf_spec _ (by omega)
  rw [State.afterWrite_mem, State.afterWrite_len, State.afterWrite_wfill, toNat_fillOf, Memory.read_writeNat,
    if_pos (by omega)]
  refine ⟨_, rfl, ?_⟩
  rw [show s.writeBase + s.writeCount n - 1 - s.writeBase = s.writeCount n - 1 by omega, BitVec.toNat_ofNat]
  refine (Nat.mod_le _ _).trans_lt (Nat.div_lt_of_lt_mul ?_)
  calc combine s.writeOperand s.writeFill t.toNat n
      < 2 ^ (s.writeFill + n) := combine_lt ..
    _ = 256 ^ (s.writeCount n - 1) * 2 ^ fillOf (s.writeFill + n) := by
      rw [← hbits, Nat.pow_add, Nat.pow_mul, hbits]

theorem State.afterWrite_inv {s : State} (h : s.Inv) {n : Nat} (hn : 1 ≤ n)
    (hc : withinCapacity s.cap (s.writeBase + s.writeCount n) = true) (t : Byte) : (s.afterWrite n t).Inv := by
  obtain ⟨hdense, hregion, ⟨_, hrf, _, hr8⟩, _, _, hdrained⟩ := h
  have hk := s.writeCount_pos n hn
  have hgrow := s.len_le_afterWrite n hn
  have hrfill := s.toNat_rfillAfterWrite n
  have hfill_pos := fillOf_pos (s.writeFill + n)
  have hfill_le := fillOf_le (s.writeFill + n)
  refine ⟨State.afterWrite_dense hdense hn t, ?_, ⟨?_, ?_, ?_, ?_⟩, hc, fun _ => ?_, fun hz _ => ?_⟩
  · change s.roff + (s.writeBase + s.writeCount n - s.roff) = s.writeBase + s.writeCount n
    omega
  · rw [State.afterWrite_len, State.afterWrite_wfill, toNat_fillOf]
    omega
  · rw [State.afterWrite_len, State.afterWrite_rfill]
    split at hrfill <;> omega
  · rw [State.afterWrite_wfill, toNat_fillOf]
    omega
  · rw [State.afterWrite_rfill]
    split at hrfill <;> omega
  · obtain ⟨b, hb, hlt⟩ := s.afterWrite_last_byte hn t
    rw [hb]
    exact hlt
  · rw [State.afterWrite_rcnt] at hz
    rw [State.afterWrite_rfill, hrfill, if_neg (by omega)]
    exact hdrained (by omega) (by omega)

theorem exec_inv {i : Instr} {s t : State} (hs : s.Inv) (h : exec i s = .next t) : t.Inv := by
  have hcap := exec_cap h
  cases i with
  | writeBits w n =>
    rcases execWriteBits_stream h with heq | ⟨hn, hc, b, _, heq⟩
    · exact hs.congr heq hcap
    · exact (State.afterWrite_inv hs hn hc b).congr heq hcap
  | readBits w n =>
    rcases execReadBits_stream h with heq | ⟨hr, hk, heq⟩
    · exact hs.congr heq hcap
    · exact (State.afterRead_inv hs hr hk).congr heq hcap
  | load =>
    rcases execLoad_stream h with heq | ⟨hc, heq⟩
    · exact hs.congr heq hcap
    · exact (State.afterLoad_inv hc).congr heq hcap
  | store => exact hs.congr (execStore_stream h) hcap
  | rewind =>
    rcases execRewind_stream h with heq | heq
    · exact hs.congr heq hcap
    · exact (State.seekStart_inv hs).congr heq hcap

theorem runCommand_inv {c : CommandWord} {s t : State} (hs : s.Inv) (h : runCommand c s = .next t) : t.Inv := by
  rcases runCommand_next h with ⟨_, rfl⟩ | ⟨_, i, _, hi⟩ | ⟨_, e, _, rfl⟩
  · exact hs.congr rfl rfl
  · exact exec_inv hs hi
  · exact hs.congr rfl rfl

theorem step_inv {s t : State} (hs : s.Inv) (h : step s = .next t) : t.Inv := by
  rcases step_next h with ⟨_, rfl⟩ | ⟨c, v, l, rest, _, hc⟩ | ⟨rest, _, rfl⟩ | ⟨k, rest, _, rfl⟩
  · exact hs
  · exact runCommand_inv (hs.congr (t := s.present rest v l) rfl rfl) hc
  · exact (State.resetWith_inv s.cap).congr rfl rfl
  · exact hs.congr rfl rfl

/-! ### Under the invariants every step answers: no rule asks for a byte that is not there -/

theorem Memory.readNat_of_indices {m : Memory} {len a n : Nat} (h : m.map Prod.fst = List.range len) (hn : a + n ≤ len) :
    ∃ v, m.readNat a n = some v :=
  Option.isSome_iff_exists.1 <| (m.readNat_isSome_iff a n).2 fun _ _ => (Memory.read_isSome_of_indices h _).2 (by omega)

theorem Memory.readBytes_of_indices {m : Memory} {len a n : Nat} (h : m.map Prod.fst = List.range len)
    (hn : a + n ≤ len) : ∃ bs, m.readBytes a n = some bs :=
  Option.isSome_iff_exists.1 <| (m.readBytes_isSome_iff a n).2 fun _ _ => (Memory.read_isSome_of_indices h _).2 (by omega)

theorem execWriteBits_answers {s : State} (hs : s.Inv) (w : StorageWidth) (n : Nat) :
    ∃ t, execWriteBits w n s = .next t := by
  obtain ⟨b, hb, _⟩ := State.reclaimedByte_of_inv hs
  simp only [execWriteBits, hb]
  repeat' split
  all_goals exact ⟨_, rfl⟩

theorem execReadBits_answers {s : State} (hs : s.Inv) (w : StorageWidth) (n : Nat) :
    ∃ t, execReadBits w n s = .next t := by
  obtain ⟨hdense, hregion, _⟩ := hs
  unfold execReadBits
  split
  · exact ⟨_, rfl⟩
  split
  · exact ⟨_, rfl⟩
  split
  · exact ⟨_, rfl⟩
  split
  · exact ⟨_, rfl⟩
  · next r hr =>
    obtain ⟨hle, rfl⟩ := (Region.subspan2_eq_some_iff ..).1 hr
    have hin : s.roff + 0 + s.readCount n ≤ s.len := by
      simp only [State.readRegion] at hle
      omega
    obtain ⟨q, hq⟩ := Memory.readNat_of_indices hdense hin
    simp only [State.readRegion, hq]
    exact ⟨_, rfl⟩

theorem exec_answers {s : State} (hs : s.Inv) (i : Instr) : ∃ t, exec i s = .next t := by
  cases i with
  | writeBits w n => exact execWriteBits_answers hs w n
  | readBits w n => exact execReadBits_answers hs w n
  | load =>
    simp only [exec, execLoad]
    repeat' split
    all_goals exact ⟨_, rfl⟩
  | store =>
    obtain ⟨bs, hbs⟩ := Memory.readBytes_of_indices hs.1 (Nat.zero_add s.len).le
    simp only [exec, execStore, hbs]
    split <;> exact ⟨_, rfl⟩
  | rewind =>
    simp only [exec, execRewind]
    split <;> exact ⟨_, rfl⟩

theorem runCommand_answers {s : State} (hs : s.Inv) (c : CommandWord) : ∃ t, runCommand c s = .next t := by
  unfold runCommand
  split
  · exact ⟨_, rfl⟩
  split
  · exact exec_answers hs _
  · exact ⟨_, rfl⟩

theorem step_answers {s : State} (hs : s.Inv) : ∃ t, step s = .next t := by
  unfold step
  split
  · exact ⟨_, rfl⟩
  · next c v l rest _ => exact runCommand_answers (hs.congr (t := s.present rest v l) rfl rfl) c
  · exact ⟨_, rfl⟩
  · exact ⟨_, rfl⟩

/-! ### Every reachable state -/

/-- A property under which every step answers, and which every step keeps, holds at the end of every run from it. -/
theorem runTrace_induction {P : State → Prop} (hstep : ∀ s, P s → ∃ t, step s = .next t ∧ P t) (k : Nat) {s : State}
    (hs : P s) : ∃ t rs, runTrace k s = some (t, rs) ∧ P t := by
  induction k generalizing s with
  | zero => exact ⟨s, [], rfl, hs⟩
  | succ k ih =>
    obtain ⟨t, ht, hPt⟩ := hstep s hs
    obtain ⟨u, rs, hu, hPu⟩ := ih hPt
    exact ⟨u, t.response :: rs, by simp only [runTrace, ht, hu], hPu⟩

/-- Every run from reset answers, in a state with the invariants and the `CAP` of that reset. -/
theorem runTrace_resetWith (cap : Capacity) (es : List HostEvent) (k : Nat) :
    ∃ t rs, runTrace k ((State.resetWith cap).withInput es) = some (t, rs) ∧ t.Inv ∧ t.cap = cap := by
  refine runTrace_induction (P := fun t => t.Inv ∧ t.cap = cap) (fun s hs => ?_) k
    ⟨(State.resetWith_inv cap).congr rfl rfl, rfl⟩
  obtain ⟨hinv, hcap⟩ := hs
  obtain ⟨t, ht⟩ := step_answers hinv
  exact ⟨t, ht, step_inv hinv ht, (step_cap ht).trans hcap⟩

theorem withinCapacity_iff (cap : Capacity) (len : Nat) :
    withinCapacity cap len = true ↔ ∀ c, cap = some c → len ≤ c := by
  cases cap <;> simp [withinCapacity]

theorem Nibble.eq_zero_iff (x : Nibble) : x = 0 ↔ x.toNat = 0 := BitVec.toNat_inj.symm

/-- Item e in the words of R16: the partially filled trailing byte is there, and is below `2 ^ WFILL`. -/
theorem State.trailing_byte_of_inv {s : State} (h : s.Inv) (hp : s.trailingIsPartial) :
    ∃ b, s.mem.read (s.len - 1) = some b ∧ b.toNat < 2 ^ s.wfill.toNat := by
  obtain ⟨b, hb, hlt⟩ := State.reclaimedByte_of_inv h
  rw [State.reclaimedByte, if_pos hp] at hb
  rw [State.writeFill, if_pos hp] at hlt
  exact ⟨b, hb, hlt⟩

/-- Settles O56: the invariants hold along every run from reset, and each item of R16 is read off them. -/
theorem invariantsHoldInEveryReachableState : Obligations.InvariantsHoldInEveryReachableState := by
  intro cap es k
  obtain ⟨t, rs, hrun, hinv, hcap⟩ := runTrace_resetWith cap es k
  have htrailing := State.trailing_byte_of_inv hinv
  obtain ⟨_, hregion, ⟨hw, hr, hw8, hr8⟩, hfits, _, hdrained⟩ := hinv
  refine ⟨t, rs, hrun, hregion, ⟨?_, ?_, fun hl => ?_⟩, (withinCapacity_iff _ _).1 hfits, hcap, ?_,
    fun h1 h7 => htrailing ⟨h1, h7⟩, fun h0 hl => BitVec.eq_of_toNat_eq (hdrained h0 hl)⟩
  · rw [Nibble.eq_zero_iff, hw]
  · rw [Nibble.eq_zero_iff, hr]
  · omega
  · omega

end Sys2Proof.Machine

/-! The fields of a command word, what the decoder makes of them, and the statements of spec/30_encoding.md they settle. -/

namespace Sys2Proof

/-! ### Storage widths -/

/-- `SZ = k` gives `8 << k` bits (spec/30_encoding.md R48). -/
theorem StorageWidth.bits_ofSz (sz : BitVec 2) : (StorageWidth.ofSz sz).bits = 8 * 2 ^ sz.toNat := by
  revert sz
  decide

@[simp] theorem StorageWidth.ofSz_sz (w : StorageWidth) : StorageWidth.ofSz w.sz = w := by cases w <;> rfl

/-! ### The fields as numbers (`c[hi:lo]` of spec/00_scope.md R4) -/

theorem toNat_fieldOp (c : CommandWord) : (fieldOp c).toNat = c.toNat / 2 ^ 12 % 2 ^ 4 := by
  rw [fieldOp, BitVec.extractLsb'_toNat, Nat.shiftRight_eq_div_pow]

theorem toNat_fieldSz (c : CommandWord) : (fieldSz c).toNat = c.toNat / 2 ^ 10 % 2 ^ 2 := by
  rw [fieldSz, BitVec.extractLsb'_toNat, Nat.shiftRight_eq_div_pow]

theorem toNat_fieldZ (c : CommandWord) : (fieldZ c).toNat = c.toNat / 2 ^ 7 % 2 ^ 3 := by
  rw [fieldZ, BitVec.extractLsb'_toNat, Nat.shiftRight_eq_div_pow]

theorem toNat_fieldNbits (c : CommandWord) : (fieldNbits c).toNat = c.toNat % 2 ^ 7 := by
  rw [fieldNbits, BitVec.extractLsb'_toNat, Nat.shiftRight_zero]

/-! ### The fields of a word of format C, beside `fieldZ_formatC` -/

/-- The three fields of a word of format C do not overlap, so the word is their sum (spec/30_encoding.md R46). -/
theorem toNat_formatC (op : BitVec 4) (sz : BitVec 2) (n : BitVec 7) :
    (formatC op sz n).toNat = 2 ^ 12 * op.toNat + (2 ^ 10 * sz.toNat + n.toNat) := by
  have hop := op.isLt
  have hsz := sz.isLt
  have hn := n.isLt
  have hlow : 2 ^ 10 * sz.toNat + n.toNat < 2 ^ 12 := by omega
  rw [Nat.two_pow_add_eq_or_of_lt hlow, Nat.two_pow_add_eq_or_of_lt (by omega), ← Nat.or_assoc]
  simp only [formatC, BitVec.toNat_or, BitVec.toNat_shiftLeft, BitVec.toNat_setWidth, Nat.shiftLeft_eq]
  congr 2 <;> omega

theorem fieldOp_formatC (op : BitVec 4) (sz : BitVec 2) (n : BitVec 7) : fieldOp (formatC op sz n) = op := by
  apply BitVec.eq_of_toNat_eq
  rw [toNat_fieldOp, toNat_formatC]
  omega

theorem fieldSz_formatC (op : BitVec 4) (sz : BitVec 2) (n : BitVec 7) : fieldSz (formatC op sz n) = sz := by
  apply BitVec.eq_of_toNat_eq
  rw [toNat_fieldSz, toNat_formatC]
  omega

theorem fieldNbits_formatC (op : BitVec 4) (sz : BitVec 2) (n : BitVec 7) : fieldNbits (formatC op sz n) = n := by
  apply BitVec.eq_of_toNat_eq
  rw [toNat_fieldNbits, toNat_formatC]
  omega

/-! ### The decoder: the words it accepts, by the branches of R59 -/

theorem decodePlain_eq_ok_iff {i j : Instr} {c : CommandWord} :
    decodePlain i c = .ok j ↔ (fieldSz c = 0 ∧ fieldNbits c = 0) ∧ j = i := by
  unfold decodePlain
  split
  · next h => simp [h, eq_comm]
  · next h => exact iff_of_false nofun fun hj => h hj.1

theorem decode_eq_ok_iff {c : CommandWord} {i : Instr} :
    decode c = .ok i ↔ fieldZ c = 0 ∧
      ((fieldOp c = 1 ∧ i = .writeBits (.ofSz (fieldSz c)) (fieldNbits c).toNat) ∨
       (fieldOp c = 2 ∧ i = .readBits (.ofSz (fieldSz c)) (fieldNbits c).toNat) ∨
       ((fieldOp c = 4 ∧ fieldSz c = 0 ∧ fieldNbits c = 0) ∧ i = .load) ∨
       ((fieldOp c = 5 ∧ fieldSz c = 0 ∧ fieldNbits c = 0) ∧ i = .store) ∨
       ((fieldOp c = 6 ∧ fieldSz c = 0 ∧ fieldNbits c = 0) ∧ i = .rewind)) := by
  unfold decode
  split
  · next hz => exact iff_of_false nofun fun ⟨h, _⟩ => hz h
  next hz =>
  rw [and_iff_right (not_not.1 hz)]
  split
  · next hop => simp [hop, eq_comm]
  split
  · next hop => simp [hop, eq_comm]
  split
  · next hop => simp [hop, decodePlain_eq_ok_iff]
  split
  · next hop => simp [hop, decodePlain_eq_ok_iff]
  split
  · next hop => simp [hop, decodePlain_eq_ok_iff]
  · refine iff_of_false nofun ?_
    rintro (⟨h, _⟩ | ⟨h, _⟩ | ⟨⟨h, _⟩, _⟩ | ⟨⟨h, _⟩, _⟩ | ⟨⟨h, _⟩, _⟩) <;> contradiction

/-- A word is illegal when it is the word of no command. -/
theorem decode_error_of_not_ok {c : CommandWord} (h : ∀ i, decode c ≠ .ok i) : ∃ e, decode c = .error e := by
  cases hd : decode c with
  | error e => exact ⟨e, rfl⟩
  | ok i => exact absurd hd (h i)

theorem decode_encode_readBits (w : StorageWidth) {n : Nat} (hn : n ≤ 127) :
    decode (encode (.readBits w n)) = .ok (.readBits w n) := by
  have hlt : n % 2 ^ 7 = n := Nat.mod_eq_of_lt (by omega)
  rw [encode, decode_eq_ok_iff, fieldZ_formatC, fieldOp_formatC, fieldSz_formatC, fieldNbits_formatC,
    StorageWidth.ofSz_sz, BitVec.toNat_ofNat, hlt]
  exact ⟨rfl, .inr (.inl ⟨rfl, rfl⟩)⟩

end Sys2Proof

namespace Sys2Proof.Machine

/-- The halted check comes before the decoder (spec/60_exceptions.md R108). -/
theorem runCommand_of_halted (c : CommandWord) {s : State} (h : s.halted = true) :
    runCommand c s = .next s.refuseHalted := if_pos h

/-- Settles O3: branch by branch of R59, each read off `decode_eq_ok_iff` with the fields as numbers. -/
theorem decoderFollowsItsPseudocode : Obligations.DecoderFollowsItsPseudocode := by
  refine ⟨?_, fun c _ => runCommand_of_halted c⟩
  rintro c _ _ _ _ rfl rfl rfl rfl
  rw [← toNat_fieldOp, ← toNat_fieldSz, ← toNat_fieldZ, ← toNat_fieldNbits]
  simp only [BitVec.toNat_eq_nat, Nat.reducePow, Nat.reduceLT, Nat.ofNat_pos, true_and, ne_eq]
  split
  · next hz => exact decode_error_of_not_ok fun i h => hz (decode_eq_ok_iff.1 h).1
  next hz =>
  have hz : fieldZ c = 0 := not_not.1 hz
  split
  · next hop => exact ⟨_, StorageWidth.bits_ofSz _, decode_eq_ok_iff.2 ⟨hz, .inl ⟨hop, rfl⟩⟩⟩
  split
  · next hop => exact ⟨_, StorageWidth.bits_ofSz _, decode_eq_ok_iff.2 ⟨hz, .inr (.inl ⟨hop, rfl⟩)⟩⟩
  split
  · next h => exact decode_eq_ok_iff.2 ⟨hz, .inr (.inr (.inl ⟨h, rfl⟩))⟩
  split
  · next h => exact decode_eq_ok_iff.2 ⟨hz, .inr (.inr (.inr (.inl ⟨h, rfl⟩)))⟩
  split
  · next h => exact decode_eq_ok_iff.2 ⟨hz, .inr (.inr (.inr (.inr ⟨h, rfl⟩)))⟩
  · next hwrite hread hload hstore hrewind =>
    refine decode_error_of_not_ok fun i hi => ?_
    obtain ⟨_, ⟨h, _⟩ | ⟨h, _⟩ | ⟨h, _⟩ | ⟨h, _⟩ | ⟨h, _⟩⟩ := decode_eq_ok_iff.1 hi
    · exact hwrite h
    · exact hread h
    · exact hload h
    · exact hstore h
    · exact hrewind h

/-- Settles O6: the four words by evaluation; READ_AS.w decodes as every READ_BITS word does, its count being at most 64. -/
theorem readAsIsReadBitsOfTheWidth : Obligations.ReadAsIsReadBitsOfTheWidth := by
  refine ⟨rfl, rfl, rfl, rfl, fun w => ?_⟩
  have hn : w.bits ≤ 127 := (StorageWidth.bits_le w).trans (by decide)
  exact ⟨rfl, (if_pos hn).symm, decode_encode_readBits w hn⟩

end Sys2Proof.Machine

/-! The bit accounting of spec/40_bit_accounting.md: the exact values of the two functions, the bounds of the numbers the
two datapaths form, and the statements they settle. -/

namespace Sys2Proof.Machine

/-! ### `bytes_needed` and `fill_of` (spec/40_bit_accounting.md R60 to R62) -/

theorem bytesNeeded_eq_zero_iff (n : Nat) : bytesNeeded n = 0 ↔ n = 0 := by
  rw [← Nat.le_zero, bytesNeeded_le_iff, Nat.mul_zero, Nat.le_zero]

theorem bytesNeeded_eight_mul (m : Nat) : bytesNeeded (8 * m) = m := bytesNeeded_eight_mul_add m 0

/-- A run of 1 to 8 bits takes one byte. -/
theorem bytesNeeded_eq_one {r : Nat} (h1 : 1 ≤ r) (h8 : r ≤ 8) : bytesNeeded r = 1 :=
  le_antisymm ((bytesNeeded_le_iff r 1).2 h8) (bytesNeeded_pos r h1)

theorem fillOf_eq_ite (m : Nat) : fillOf m = if m % 8 ≠ 0 then m % 8 else 8 := (ite_not ..).symm

theorem fillOf_eq_pred_mod_succ {m : Nat} (h : 1 ≤ m) : fillOf m = (m - 1) % 8 + 1 := by
  have hspec := fillOf_spec m h
  have hpos := fillOf_pos m
  have hle := fillOf_le m
  omega

/-- Settles O15: each property from the law of the same function, the listed values by evaluation. -/
theorem bitAccountingIsExact : Obligations.BitAccountingIsExact := by
  refine ⟨fun _ => rfl, bytesNeeded_le_iff, by decide, by decide, bytesNeeded_eq_zero_iff, le_eight_mul_bytesNeeded,
    fun n => ?slack, bytesNeeded_eight_mul, fun m r h1 h7 => ?remainder, fun m hm => ?fill⟩
  case slack =>
    have := eight_mul_bytesNeeded_lt n
    omega
  case remainder => rw [bytesNeeded_eight_mul_add, bytesNeeded_eq_one h1 (by omega)]
  case fill => exact ⟨fillOf_eq_ite m, fillOf_pos m, fillOf_le m, fillOf_eq_pred_mod_succ hm, fillOf_spec m hm⟩

/-! ### The numbers the datapaths form (spec/40_bit_accounting.md R65) -/

theorem State.writeOperand_lt (s : State) : s.writeOperand < 2 ^ 64 := s.wdata.isLt

/-- Before the mask: the operand above the old fill and the reclaimed byte below it stay within 64 + 7 bits. -/
theorem State.unmasked_lt (s : State) (t : Byte) : (s.writeOperand <<< s.writeFill ||| t.toNat) < 2 ^ 71 := by
  refine Nat.or_lt_two_pow ?_ (t.isLt.trans (by decide))
  calc s.writeOperand <<< s.writeFill
      = s.writeOperand * 2 ^ s.writeFill := Nat.shiftLeft_eq ..
    _ < 2 ^ 64 * 2 ^ s.writeFill := Nat.mul_lt_mul_of_pos_right s.writeOperand_lt (Nat.two_pow_pos _)
    _ ≤ 2 ^ 64 * 2 ^ 7 := Nat.mul_le_mul_left _ (Nat.pow_le_pow_right (by decide) s.writeFill_le)
    _ = 2 ^ 71 := by decide

/-- A read of at most 64 bits that enters its leading byte with a bit left touches at most 9 bytes. -/
theorem State.readCount_le_nine {s : State} {n : Nat} (hr : 1 ≤ s.rfill.toNat) (hn : n ≤ 64) : s.readCount n ≤ 9 := by
  have hh : s.headReadBits ≤ 7 := by unfold State.headReadBits; omega
  exact (bytesNeeded_le_iff _ 9).2 (by omega)

/-- Settles O16: a write's numbers fit the at most 7 + 64 bits they are formed for, a read's the at most 9 bytes touched. -/
theorem scratchIsWideEnough : Obligations.ScratchIsWideEnough := by
  refine ⟨rfl, fun s t n hn => ?write, fun s n q hr hn hq => ?read, rfl⟩
  case write =>
    have hbits : s.writeFill + n ≤ 71 := by have := s.writeFill_le; omega
    exact ⟨s.unmasked_lt t, (combine_lt ..).trans_le (Nat.pow_le_pow_right (by decide) hbits), hbits⟩
  case read =>
    have hk := State.readCount_le_nine hr hn
    refine ⟨hk, ?_⟩
    calc q < 256 ^ s.readCount n := Memory.readNat_lt hq
      _ ≤ 256 ^ 9 := Nat.pow_le_pow_right (by decide) hk
      _ = 2 ^ 72 := by decide

end Sys2Proof.Machine

/-! WRITE_BITS (spec/41_write.md): its answer branch by branch, what the merged number depends on, and the statements of
that chapter they settle. -/

namespace Sys2Proof.Machine

/-! ### The answer of each branch, beside `execWriteBits_next` -/

theorem execWriteBits_of_wide {w : StorageWidth} {n : Nat} {s : State} (hh : s.halted = false) (hn : w.bits < n) :
    execWriteBits w n s = .next (s.raise .contractViolation) := by
  rw [execWriteBits, hh, if_neg Bool.false_ne_true, if_pos hn]

theorem execWriteBits_of_overflow {w : StorageWidth} {n : Nat} {s : State} (hh : s.halted = false) (hn : n ≤ w.bits)
    (h1 : 1 ≤ n) (hc : withinCapacity s.cap (s.writeBase + s.writeCount n) = false) :
    execWriteBits w n s = .next (s.raise .capacityOverflow) := by
  rw [execWriteBits, hh, if_neg Bool.false_ne_true, if_neg hn.not_gt, if_neg (Nat.one_le_iff_ne_zero.1 h1), if_pos hc]

theorem execWriteBits_of_fits {w : StorageWidth} {n : Nat} {s : State} {b : Byte} (hh : s.halted = false)
    (hn : n ≤ w.bits) (h1 : 1 ≤ n) (hc : withinCapacity s.cap (s.writeBase + s.writeCount n) = true)
    (hb : s.reclaimedByte = some b) : execWriteBits w n s = .next ((s.afterWrite n b).respond .ok) := by
  simp only [execWriteBits, hh, hn.not_gt, Nat.one_le_iff_ne_zero.1 h1, hc, hb, Bool.true_eq_false, Bool.false_eq_true,
    if_false]

/-- Nothing is answered OK but a write of no bits and a write that passed every check. -/
theorem execWriteBits_next_of_ok {w : StorageWidth} {n : Nat} {s t : State} (h : execWriteBits w n s = .next t)
    (hok : t.lastStatus = some .ok) :
    (n = 0 ∧ t = s.respond .ok) ∨
    (1 ≤ n ∧ withinCapacity s.cap (s.writeBase + s.writeCount n) = true ∧
      ∃ b, s.reclaimedByte = some b ∧ t = (s.afterWrite n b).respond .ok) := by
  rcases execWriteBits_next h with ⟨_, rfl⟩ | ⟨_, _, rfl⟩ | ⟨_, _, h0, rfl⟩ | ⟨_, _, _, _, rfl⟩ | ⟨_, _, h1, hc, hb⟩
  case inr.inr.inl => exact .inl ⟨h0, rfl⟩
  case inr.inr.inr.inr => exact .inr ⟨h1, hc, hb⟩
  all_goals simp [State.lastStatus, FaultClass.status] at hok

/-! ### Completion -/

theorem State.toNat_reclaimedByte {s : State} {b : Byte} (h : s.reclaimedByte = some b) :
    b.toNat = if s.trailingIsPartial then ((s.mem.read (s.len - 1)).getD 0).toNat else 0 := by
  unfold State.reclaimedByte at h
  split at h
  · next hp => rw [if_pos hp, h, Option.getD_some]
  · next hp => cases h; rw [if_neg hp]; rfl

/-- Inside the run `MemWrite` stores, byte `i` is byte `i` of the number. -/
theorem Memory.read_writeNat_add (m : Memory) (a : Nat) {n : Nat} (v : Nat) {i : Nat} (hi : i < n) :
    (m.writeNat a n v).read (a + i) = some (BitVec.ofNat 8 (v >>> (8 * i))) := by
  rw [Memory.read_writeNat, if_pos (by omega), Nat.add_sub_cancel_left, Nat.shiftRight_eq_div_pow, Nat.pow_mul]

/-- Outside the run every byte is as it was. -/
theorem Memory.read_writeNat_of_outside (m : Memory) {a n x : Nat} (v : Nat) (hx : x < a ∨ a + n ≤ x) :
    (m.writeNat a n v).read x = m.read x := by
  rw [Memory.read_writeNat, if_neg (by omega)]

/-- Settles O22: the write passes every check and the reclaimed byte is there, so the answer is `afterWrite`; its buffer is
read inside and outside the run, its registers are given by their laws. -/
theorem writeBitsResult : Obligations.WriteBitsResult := by
  intro w n s f base k tb comb hinv hh hn h1 hf htb hbase hcomb hk hcap
  obtain ⟨b, hb, _⟩ := State.reclaimedByte_of_inv hinv
  obtain rfl : f = s.writeFill := hf
  obtain rfl : base = s.writeBase := hbase
  obtain rfl : k = s.writeCount n := hk
  obtain rfl : tb = b.toNat := htb.trans (State.toNat_reclaimedByte hb).symm
  obtain rfl : comb = combine s.writeOperand s.writeFill b.toNat n := hcomb
  have hfits := (withinCapacity_iff s.cap (s.writeBase + s.writeCount n)).2 hcap
  exact ⟨(s.afterWrite n b).respond .ok, execWriteBits_of_fits hh hn h1 hfits hb,
    fun i hi => Memory.read_writeNat_add _ _ _ hi, fun a ha => Memory.read_writeNat_of_outside _ _ ha, rfl,
    toNat_fillOf _, rfl, rfl, s.toNat_rfillAfterWrite n, rfl, rfl, rfl⟩

/-! ### The read cursor under a write (spec/41_write.md R69) -/

/-- An empty buffer has no partially filled byte. -/
theorem State.writeFill_of_empty {s : State} (h : s.Inv) (h0 : s.len = 0) : s.writeFill = 0 :=
  if_neg fun hp => by have := State.one_le_len_of_partial h hp; omega

/-- An empty buffer has an empty read region at its start (spec/10_state.md R16 item a). -/
theorem State.roff_of_empty {s : State} (h : s.Inv) (h0 : s.len = 0) : s.roff = 0 := by
  have hregion := h.2.1
  omega

theorem State.rfillAfterWrite_of_nonempty {s : State} (h : s.len ≠ 0) (n : Nat) : s.rfillAfterWrite n = s.rfill := if_neg h

/-- Settles O24: `RFILL` after an OK write is `rfillAfterWrite`, with an old fill of 0 where the buffer was empty; with
bytes in the buffer that is `RFILL` as it was, and every other answer leaves the stream registers alone. -/
theorem firstWriteEstablishesTheReadCursor : Obligations.FirstWriteEstablishesTheReadCursor := by
  refine ⟨fun w n s t hinv h0 h1 h hok => ?first, fun w n s t hs h => ?other⟩
  case first =>
    rcases execWriteBits_next_of_ok h hok with ⟨hn, _⟩ | ⟨_, _, b, _, rfl⟩
    · omega
    · have hrfill : (s.rfillAfterWrite n).toNat = min n 8 := by
        rw [State.toNat_rfillAfterWrite, if_pos h0, State.writeFill_of_empty hinv h0, Nat.zero_add]
      refine ⟨hrfill, ?_⟩
      change 8 * s.roff + (8 - (s.rfillAfterWrite n).toNat) = 8 - min n 8
      rw [State.roff_of_empty hinv h0, hrfill, Nat.zero_add]
  case other =>
    rcases execWriteBits_stream h with hstream | ⟨h1, _, b, _, hstream⟩ <;>
      obtain ⟨_, _, _, _, _, hrfill⟩ := State.stream_eq_iff.1 hstream
    · exact hrfill
    · exact hrfill.trans (State.rfillAfterWrite_of_nonempty (hs.resolve_right (by omega)) n)

/-! ### Only the low `n` bits of the operand (spec/41_write.md R71) -/

/-- With a reclaimed byte that stays below the old fill, the mask cuts off operand bits only. -/
theorem combine_of_lt {f t : Nat} (v n : Nat) (h : t < 2 ^ f) : combine v f t n = (v % 2 ^ n) <<< f ||| t := by
  refine Nat.eq_of_testBit_eq fun i => ?_
  rw [testBit_combine, Nat.testBit_or, Nat.testBit_shiftLeft, Nat.testBit_mod_two_pow]
  by_cases hi : f ≤ i
  · have ht : t.testBit i = false := Nat.testBit_lt_two_pow (h.trans_le (Nat.pow_le_pow_right (by decide) hi))
    have hbound : i - f < n ↔ i < f + n := by omega
    simp [hi, ht, hbound]
  · have hbound : i < f + n := by omega
    simp [hi, hbound]

/-- The mask leaves nothing of the operand at or above `n`, whatever the reclaimed byte. -/
theorem combine_mod_operand (v f t n : Nat) : combine (v % 2 ^ n) f t n = combine v f t n := by
  refine Nat.eq_of_testBit_eq fun i => ?_
  rw [testBit_combine, testBit_combine, Nat.testBit_mod_two_pow]
  by_cases hi : i < f + n ∧ f ≤ i
  · have hbound : i - f < n := by omega
    simp [hbound]
  · have hcut : (decide (i < f + n) && decide (f ≤ i)) = false := by simpa using hi
    simp only [Bool.and_or_distrib_left, ← Bool.and_assoc, hcut, Bool.false_and]

theorem combine_congr {v v' n : Nat} (h : v % 2 ^ n = v' % 2 ^ n) (f t : Nat) : combine v f t n = combine v' f t n := by
  rw [← combine_mod_operand v, h, combine_mod_operand]

theorem State.afterWrite_with_wdata {s : State} {n : Nat} {v : Value} (h : v.toNat % 2 ^ n = s.wdata.toNat % 2 ^ n)
    (b : Byte) : State.afterWrite { s with wdata := v } n b = { s.afterWrite n b with wdata := v } :=
  congrArg (fun c => { s.afterWrite n b with mem := s.mem.writeNat s.writeBase (s.writeCount n) c, wdata := v })
    (combine_congr h s.writeFill b.toNat)

/-- The checks and the addresses do not look at the operand, and the merged number looks at its low `n` bits only. -/
theorem execWriteBits_with_wdata (w : StorageWidth) {n : Nat} {s : State} {v : Value}
    (h : v.toNat % 2 ^ n = s.wdata.toNat % 2 ^ n) :
    execWriteBits w n { s with wdata := v } = mapNext (fun t => { t with wdata := v }) (execWriteBits w n s) := by
  simp only [execWriteBits, apply_ite (mapNext _)]
  refine ite_congr rfl (fun _ => rfl) fun _ => ite_congr rfl (fun _ => rfl) fun _ => ite_congr rfl (fun _ => rfl) fun _ =>
    ite_congr rfl (fun _ => rfl) fun _ => ?_
  have hread : State.reclaimedByte { s with wdata := v } = s.reclaimedByte := rfl
  rw [hread]
  cases s.reclaimedByte with
  | some b => exact congrArg (fun t => Host.Outcome.next (t.respond .ok)) (State.afterWrite_with_wdata h b)
  | none => rfl

/-- The storage width bounds the bit count and is looked at for nothing else. -/
theorem execWriteBits_width_irrelevant {w w' : StorageWidth} {n : Nat} (h : n ≤ w.bits) (h' : n ≤ w'.bits) (s : State) :
    execWriteBits w n s = execWriteBits w' n s := by
  rw [execWriteBits, execWriteBits, if_neg h.not_gt, if_neg h'.not_gt]

/-- The first write of `n` bits on an engine after reset, where the bytes they take fit. -/
theorem execWriteBits_resetWith {w : StorageWidth} {n : Nat} {cap : Capacity} (hn : n ≤ w.bits) (h1 : 1 ≤ n)
    (hc : withinCapacity cap (bytesNeeded n) = true) (v : Value) :
    ∃ t, execWriteBits w n { State.resetWith cap with wdata := v } = .next t ∧
      t.mem = Memory.writeNat [] 0 (bytesNeeded n) (combine v.toNat 0 0 n) ∧ t.wfill = BitVec.ofNat 4 (fillOf n) := by
  have hk : State.writeCount { State.resetWith cap with wdata := v } n = bytesNeeded n :=
    congrArg bytesNeeded (Nat.zero_add n)
  refine ⟨_, execWriteBits_of_fits (b := 0) (State.resetWith_halted cap) hn h1 ?_ rfl, ?_, ?_⟩
  · rw [hk]
    exact (Nat.zero_add _).symm ▸ hc
  · rw [State.respond_mem, State.afterWrite_mem, hk]
    rfl
  · rw [State.respond_wfill, State.afterWrite_wfill]
    exact congrArg (fun m => BitVec.ofNat 4 (fillOf m)) (Nat.zero_add n)

/-- Settles O25: the merged number and the outcome by the lemmas before it, the rule's example as a first write. -/
theorem writeUsesOnlyTheLowBits : Obligations.WriteUsesOnlyTheLowBits :=
  ⟨fun v _ _ n ht => combine_of_lt v n ht, fun w _ _ _ h => execWriteBits_with_wdata w h,
    fun _ _ _ s h h' => execWriteBits_width_irrelevant h h' s,
    fun _ hc => execWriteBits_resetWith (w := .w16) (n := 3) (by decide) (by decide) hc 0xFFFF⟩

/-! ### A full last byte merged back (spec/41_write.md R73) -/

/-- Writing back the byte that is there changes nothing. -/
theorem Memory.write_of_read {m : Memory} (h : m.wf) {a : Nat} {b : Byte} (hb : m.read a = some b) : m.write a b = m := by
  refine Memory.ext_of_wf (Memory.wf_write a b h) h fun x => ?_
  rw [Memory.read_write]
  split
  · next hx => rw [hx, hb]
  · rfl

/-- Merged above a full byte, the number is that byte with the operand's low bits above it. -/
theorem combine_full_byte (v n : Nat) (b : Byte) : combine v 8 b.toNat n = 256 * combine v 0 0 n + b.toNat := by
  rw [combine_of_lt v n b.isLt, combine_of_lt v n Nat.one_pos, ← Nat.shiftLeft_add_eq_or_of_lt b.isLt, Nat.shiftLeft_eq,
    Nat.shiftLeft_zero, Nat.or_zero, Nat.mul_comm]

theorem bytesNeeded_eight_add (n : Nat) : bytesNeeded (8 + n) = bytesNeeded n + 1 :=
  (bytesNeeded_eight_mul_add 1 n).trans (Nat.add_comm ..)

theorem fillOf_eight_add (n : Nat) : fillOf (8 + n) = fillOf n := by
  rw [fillOf, fillOf, Nat.add_mod_left]

/-- Settles O27: the first byte emitted is the one that stands there, the rest is the run of the append. -/
theorem remergingAFullByteIsAppending : Obligations.RemergingAFullByteIsAppending := by
  intro m len v n b hm hlen _ hb
  refine ⟨?_, by rw [bytesNeeded_eight_add]; omega, fillOf_eight_add n⟩
  have hlow : BitVec.ofNat 8 (256 * combine v 0 0 n + b.toNat) = b := by
    refine BitVec.eq_of_toNat_eq ?_
    rw [BitVec.toNat_ofNat, Nat.mul_add_mod, Nat.mod_eq_of_lt b.isLt]
  have hhigh : (256 * combine v 0 0 n + b.toNat) / 256 = combine v 0 0 n := by
    rw [Nat.mul_add_div (by decide), Nat.div_eq_of_lt b.isLt, Nat.add_zero]
  calc m.writeNat (len - 1) (bytesNeeded (8 + n)) (combine v 8 b.toNat n)
      = (m.write (len - 1) b).writeNat (len - 1 + 1) (bytesNeeded n) (combine v 0 0 n) := by
        rw [bytesNeeded_eight_add, combine_full_byte, Memory.writeNat, hlow, hhigh]
    _ = m.writeNat len (bytesNeeded n) (combine v 0 0 n) := by
        rw [Memory.write_of_read (Memory.wf_of_indices hm) hb, Nat.sub_add_cancel hlen]

/-! ### Faults (spec/41_write.md R74) -/

theorem withinCapacity_some_of_lt {c len : Nat} (h : c < len) : withinCapacity (some c) len = false :=
  decide_eq_false h.not_ge

/-- Settles O29: each fault is the answer of its branch, and no branch of WRITE_BITS answers ERR_BOUNDS or sets a flag
with status OK. -/
theorem writeBitsFaults : Obligations.WriteBitsFaults := by
  refine ⟨fun w n s hh hn => ?contract, fun w n c s hh hn h1 hcap hc => ?capacity, fun w n s t h =>
    ⟨?bounds, fun hok => ?flags⟩⟩
  case contract =>
    exact ⟨_, execWriteBits_of_wide hh hn, rfl, rfl, by simp [State.raise_halted], rfl⟩
  case capacity =>
    have hover : withinCapacity s.cap (s.writeBase + s.writeCount n) = false := hcap ▸ withinCapacity_some_of_lt hc
    exact ⟨_, execWriteBits_of_overflow hh hn h1 hover, rfl, rfl, by simp [State.raise_halted, hh], rfl⟩
  case bounds =>
    rcases execWriteBits_next h with ⟨_, rfl⟩ | ⟨_, _, rfl⟩ | ⟨_, _, _, rfl⟩ | ⟨_, _, _, _, rfl⟩ | ⟨_, _, _, _, b, _, rfl⟩ <;>
      simp [State.lastStatus, FaultClass.status]
  case flags =>
    rcases execWriteBits_next_of_ok h hok with ⟨_, rfl⟩ | ⟨_, _, b, _, rfl⟩ <;> rfl

end Sys2Proof.Machine

/-! READ_BITS (spec/42_read.md): its answer branch by branch, what it hands out, and the statements of that chapter they
settle. -/

namespace Sys2Proof.Machine

/-! ### The answer of each branch, beside `execReadBits_next` -/

/-- The touched bytes as a part of the read region (spec/43_region_view.md R84). -/
theorem State.readRegion_subspan2_of_le {s : State} {k : Nat} (h : k ≤ s.rcnt) :
    s.readRegion.subspan2 0 k = some { offset := s.roff, count := k } :=
  (Region.subspan2_eq_some_iff ..).2 ⟨(Nat.zero_add k).trans_le h, rfl⟩

theorem State.readRegion_subspan2_of_lt {s : State} {k : Nat} (h : s.rcnt < k) : s.readRegion.subspan2 0 k = none :=
  if_neg ((Nat.zero_add k).symm ▸ h.not_ge)

theorem execReadBits_of_contract {w : StorageWidth} {n : Nat} {s : State} (hh : s.halted = false)
    (hc : w.bits < n ∨ s.rfill = 0) : execReadBits w n s = .next (s.raise .contractViolation) := by
  rw [execReadBits, hh, if_neg Bool.false_ne_true]
  rcases hc with hn | hr
  · rw [if_pos hn]
  · rw [if_pos hr, ite_self]

theorem execReadBits_of_past_region {w : StorageWidth} {n : Nat} {s : State} (hh : s.halted = false) (hn : n ≤ w.bits)
    (hr : s.rfill ≠ 0) (hk : s.rcnt < s.readCount n) : execReadBits w n s = .next (s.raise .boundsViolation) := by
  simp only [execReadBits, hh, hn.not_gt, hr, State.readRegion_subspan2_of_lt hk, Bool.false_eq_true, if_false]

theorem execReadBits_of_fits {w : StorageWidth} {n q : Nat} {s : State} (hh : s.halted = false) (hn : n ≤ w.bits)
    (hr : s.rfill ≠ 0) (hk : s.readCount n ≤ s.rcnt) (hq : s.mem.readNat s.roff (s.readCount n) = some q) :
    execReadBits w n s = .next ((s.afterRead n).respondValue (extractField q s.headReadBits n)) := by
  simp only [execReadBits, hh, hn.not_gt, hr, State.readRegion_subspan2_of_le hk, hq, Bool.false_eq_true, if_false]

/-- Nothing is answered OK but a read that passed every check. -/
theorem execReadBits_next_of_ok {w : StorageWidth} {n : Nat} {s t : State} (h : execReadBits w n s = .next t)
    (hok : t.lastStatus = some .ok) :
    s.rfill ≠ 0 ∧ s.readCount n ≤ s.rcnt ∧ ∃ q, s.mem.readNat s.roff (s.readCount n) = some q ∧
      t = (s.afterRead n).respondValue (extractField q s.headReadBits n) := by
  rcases execReadBits_next h with ⟨_, rfl⟩ | ⟨_, _, rfl⟩ | ⟨_, _, _, _, rfl⟩ | ⟨_, _, hr, hk, hq⟩
  case inr.inr.inr => exact ⟨hr, hk, hq⟩
  all_goals simp [State.lastStatus, FaultClass.status] at hok

/-- A read hands out data in an OK response only (spec/60_exceptions.md R109). -/
theorem execReadBits_ok_of_rdata {w : StorageWidth} {n : Nat} {s t : State} {v : Value}
    (h : execReadBits w n s = .next t) (hv : t.lastRdata = some v) : t.lastStatus = some .ok := by
  rcases execReadBits_next h with ⟨_, rfl⟩ | ⟨_, _, rfl⟩ | ⟨_, _, _, _, rfl⟩ | ⟨_, _, _, _, q, _, rfl⟩
  case inr.inr.inr => rfl
  all_goals simp [State.lastRdata] at hv

/-- The storage width bounds the bit count and is looked at for nothing else. -/
theorem execReadBits_width_irrelevant {w w' : StorageWidth} {n : Nat} (h : n ≤ w.bits) (h' : n ≤ w'.bits) (s : State) :
    execReadBits w n s = execReadBits w' n s := by
  rw [execReadBits, execReadBits, if_neg h.not_gt, if_neg h'.not_gt]

/-! ### Completion (spec/42_read.md R76) -/

/-- `RFILL` after a read in the two cases of the rule. -/
theorem State.toNat_rfillAfterRead_eq_ite (s : State) (n : Nat) :
    (s.rfillAfterRead n).toNat = if s.readTail n = 0 then 8 else 8 - s.readTail n := by
  rw [State.toNat_rfillAfterRead]
  split
  · next h => rw [h]
  · rfl

/-- Under the invariants every byte a read within its region touches is there. -/
theorem State.touchedBytes_of_inv {s : State} (h : s.Inv) {k : Nat} (hk : k ≤ s.rcnt) :
    ∃ q, s.mem.readNat s.roff k = some q := by
  obtain ⟨hdense, hregion, _⟩ := h
  exact Memory.readNat_of_indices hdense (by omega)

/-- Settles O30: the read passes every check and the touched bytes are there, so the answer is `afterRead` with the field
cut out of them; its registers are given by their laws. -/
theorem readBitsResult : Obligations.ReadBitsResult := by
  intro w n s h k r hinv hh hn hr hhead hk hle htail
  obtain rfl : h = s.headReadBits := hhead
  obtain rfl : k = s.readCount n := hk
  obtain rfl : r = s.readTail n := htail
  obtain ⟨q, hq⟩ := State.touchedBytes_of_inv hinv hle
  exact ⟨q, (s.afterRead n).respondValue (extractField q s.headReadBits n), hq, execReadBits_of_fits hh hn hr hle hq,
    rfl, rfl, s.toNat_rfillAfterRead_eq_ite n, rfl, rfl, rfl, rfl, rfl, rfl⟩

/-! ### The value handed out (spec/42_read.md R78) -/

theorem extractField_lt (q h n : Nat) : extractField q h n < 2 ^ n := Nat.mod_lt _ (Nat.two_pow_pos n)

theorem execReadBits_rdata_lt {w : StorageWidth} {n : Nat} {s t : State} {v : Value} (h : execReadBits w n s = .next t)
    (hv : t.lastRdata = some v) : v.toNat < 2 ^ n := by
  obtain ⟨_, _, q, _, rfl⟩ := execReadBits_next_of_ok h (execReadBits_ok_of_rdata h hv)
  obtain rfl : BitVec.ofNat 64 (extractField q s.headReadBits n) = v := Option.some.inj hv
  rw [BitVec.toNat_ofNat]
  exact (Nat.mod_le ..).trans_lt (extractField_lt ..)

/-- A number below `2 ^ n` has no bit at or above `n`. -/
theorem Value.getLsbD_of_lt_two_pow {v : Value} {n i : Nat} (hv : v.toNat < 2 ^ n) (hi : n ≤ i) : v.getLsbD i = false :=
  Nat.testBit_lt_two_pow (hv.trans_le (Nat.pow_le_pow_right (by decide) hi))

/-- Settles O32: the mask bounds the value and so its bits, a read writes no byte, and the width is only a bound. -/
theorem readValueHasNoHighBits : Obligations.ReadValueHasNoHighBits := by
  refine ⟨fun w n s t v h hv => ?_, fun _ _ _ s hn hn' => execReadBits_width_irrelevant hn hn' s⟩
  have hlt := execReadBits_rdata_lt h hv
  have hframe := exec_buffer_frame (.inl ⟨w, n, rfl⟩) h
  exact ⟨hlt, fun i hi => Value.getLsbD_of_lt_two_pow hlt hi, hframe.1⟩

/-! ### Faults (spec/42_read.md R98) -/

/-- Settles O37: each fault is the answer of its branch, and no branch of READ_BITS answers ERR_CAPACITY or sets a flag
with status OK. -/
theorem readBitsFaults : Obligations.ReadBitsFaults := by
  refine ⟨fun w n s hh hc => ?contract, fun w n s hh hn hr hk => ?bounds, fun w n s t h =>
    ⟨?capacity, fun hok => ?flags⟩⟩
  case contract =>
    exact ⟨_, execReadBits_of_contract hh hc, rfl, rfl, by simp [State.raise_halted], rfl⟩
  case bounds =>
    exact ⟨_, execReadBits_of_past_region hh hn hr hk, rfl, rfl, by simp [State.raise_halted, hh], rfl⟩
  case capacity =>
    rcases execReadBits_next h with ⟨_, rfl⟩ | ⟨_, _, rfl⟩ | ⟨_, _, _, _, rfl⟩ | ⟨_, _, _, _, q, _, rfl⟩ <;>
      simp [State.lastStatus, FaultClass.status]
  case flags =>
    obtain ⟨_, _, q, _, rfl⟩ := execReadBits_next_of_ok h hok
    rfl

end Sys2Proof.Machine

/-! The byte-region view of spec/43_region_view.md: where a subspan fails, what validity it keeps, and the statement of
that chapter they settle. -/

namespace Sys2Proof.Machine

/-! ### Failure, beside `subspan1_eq_some_iff` and `subspan2_eq_some_iff` (spec/43_region_view.md R86) -/

theorem Region.subspan1_eq_none_iff (r : Region) (off : Nat) : r.subspan1 off = none ↔ r.count < off := by
  simp only [Region.subspan1, ite_eq_right_iff, reduceCtorEq, imp_false, Nat.not_le]

theorem Region.subspan2_eq_none_iff (r : Region) (off cnt : Nat) : r.subspan2 off cnt = none ↔ r.count < off + cnt := by
  simp only [Region.subspan2, ite_eq_right_iff, reduceCtorEq, imp_false, Nat.not_le]

/-! ### A subspan ends no later than the region it was taken from -/

theorem Region.ValidFor.of_subspan1 {r r' : Region} {len off : Nat} (hr : r.ValidFor len)
    (h : r.subspan1 off = some r') : r'.ValidFor len := by
  obtain ⟨hoff, rfl⟩ := (Region.subspan1_eq_some_iff ..).1 h
  calc r.offset + off + (r.count - off)
      = r.offset + r.count := by omega
    _ ≤ len := hr

theorem Region.ValidFor.of_subspan2 {r r' : Region} {len off cnt : Nat} (hr : r.ValidFor len)
    (h : r.subspan2 off cnt = some r') : r'.ValidFor len := by
  obtain ⟨hfits, rfl⟩ := (Region.subspan2_eq_some_iff ..).1 h
  calc r.offset + off + cnt
      = r.offset + (off + cnt) := Nat.add_assoc ..
    _ ≤ r.offset + r.count := Nat.add_le_add_left hfits _
    _ ≤ len := hr

/-! ### The empty region (spec/43_region_view.md R85) -/

theorem Region.isEmpty_iff (r : Region) : r.isEmpty = true ↔ r.count = 0 := beq_iff_eq

/-- Settles O17: success and failure of each subspan by its two equivalences, validity by the lemmas on where a subspan
ends; `RCNT`, the count of the read region, is status register 3; the three instances of R86 by the same equivalences. -/
theorem regionViewFailsClosed : Obligations.RegionViewFailsClosed := by
  refine ⟨fun r off => ⟨fun hfits => ?fits1, (r.subspan1_eq_none_iff off).2, fun _ _ => Region.ValidFor.of_subspan1⟩,
    fun r off cnt => ⟨fun hfits => ?fits2, (r.subspan2_eq_none_iff off cnt).2, fun _ _ => Region.ValidFor.of_subspan2⟩,
    Region.isEmpty_iff, fun s => s.readRegion.isEmpty_iff, fun o => ⟨?empty, ?countPast, ?offsetPast⟩⟩
  case fits1 => exact (r.subspan1_eq_some_iff _ off).2 ⟨hfits, rfl⟩
  case fits2 => exact (r.subspan2_eq_some_iff _ off cnt).2 ⟨hfits, rfl⟩
  case empty => exact (Region.subspan2_eq_some_iff ..).2 ⟨Nat.le_refl 0, rfl⟩
  case countPast => exact (Region.subspan2_eq_none_iff ..).2 Nat.zero_lt_one
  case offsetPast => exact (Region.subspan2_eq_none_iff ..).2 Nat.zero_lt_one

end Sys2Proof.Machine

/-! LOAD, STORE and REWIND (spec/44_bulk_and_cursor.md): the answer of each branch, what STORE hands out, and the statements
of that chapter they settle. -/

namespace Sys2Proof.Machine

/-! ### The answer of each branch, beside `execLoad_next`, `execStore_next` and `execRewind_next` -/

/-- The halted check is the first of every command (spec/60_exceptions.md R108). -/
theorem exec_of_halted (i : Instr) {s : State} (h : s.halted = true) : exec i s = .next s.refuseHalted := by
  cases i <;> exact if_pos h

theorem execLoad_of_overflow {s : State} (hh : s.halted = false) (hc : withinCapacity s.cap s.lsrcLen = false) :
    execLoad s = .next (s.raise .capacityOverflow) := by
  rw [execLoad, hh, if_neg Bool.false_ne_true, if_pos hc]

theorem execLoad_of_fits {s : State} (hh : s.halted = false) (hc : withinCapacity s.cap s.lsrcLen = true) :
    execLoad s = .next (s.afterLoad.respond .ok) := by
  rw [execLoad, hh, hc, if_neg Bool.false_ne_true, if_neg Bool.false_ne_true.symm]

theorem execStore_of_bytes {s : State} {bs : List Byte} (hh : s.halted = false)
    (hbs : s.mem.readBytes 0 s.len = some bs) : execStore s = .next (s.respondBytes bs) := by
  simp only [execStore, hh, hbs, Bool.false_eq_true, if_false]

theorem execRewind_of_running {s : State} (hh : s.halted = false) : execRewind s = .next (s.seekStart.respond .ok) := by
  rw [execRewind, hh, if_neg Bool.false_ne_true]

/-! ### LOAD (spec/44_bulk_and_cursor.md R89) -/

/-- Settles O38: a load that fits answers `afterLoad`; the buffer is `ofBytes` of the bytes on `LSRC`, the registers are
given by the laws of `afterLoad`. -/
theorem loadResult : Obligations.LoadResult := by
  intro s hh hfits
  have hbytes (a : Nat) : (Memory.ofBytes 0 s.lsrc).read a = s.lsrc[a]? := by
    rw [Memory.read_ofBytes, if_pos (Nat.zero_le a), Nat.sub_zero]
  exact ⟨_, execLoad_of_fits hh ((withinCapacity_iff _ _).2 hfits), hbytes, Memory.wf_ofBytes 0 s.lsrc,
    rfl, rfl, rfl, rfl, rfl, rfl, rfl, rfl⟩

/-! ### STORE (spec/44_bulk_and_cursor.md R92) -/

/-- STORE's byte sequence ends with the last byte of the buffer. -/
theorem Memory.getLast?_of_readBytes {m : Memory} {n : Nat} {bs : List Byte} (h : m.readBytes 0 n = some bs)
    (hn : 1 ≤ n) : bs.getLast? = m.read (n - 1) := by
  obtain ⟨hlen, hget⟩ := Memory.readBytes_spec h
  rw [List.getLast?_eq_getElem?, hlen, hget (n - 1) (Nat.sub_lt hn Nat.one_pos), Nat.zero_add]

/-- Settles O39: in a dense buffer the bytes below `LEN` are there, so STORE answers with them and can be repeated; the
last of them is the trailing byte, which is below `2 ^ WFILL` by item e of R16. -/
theorem storeResult : Obligations.StoreResult := by
  refine ⟨fun s hdense hh => ?_, fun s hh => exec_of_halted .store hh⟩
  obtain ⟨bs, hbs⟩ := Memory.readBytes_of_indices hdense (Nat.zero_add s.len).le
  obtain ⟨hlen, hget⟩ := Memory.readBytes_spec hbs
  refine ⟨bs, s.respondBytes bs, execStore_of_bytes hh hbs, rfl, hlen, fun i hi => ?bytes,
    execStore_of_bytes (s := s.respondBytes bs) hh hbs, fun hinv hp => ?padding⟩
  case bytes => rw [hget i hi, Nat.zero_add]
  case padding =>
    rw [Memory.getLast?_of_readBytes hbs (State.one_le_len_of_partial hinv hp)]
    exact State.trailing_byte_of_inv hinv hp

/-! ### REWIND (spec/44_bulk_and_cursor.md R93) -/

/-- At the start of a non-empty buffer the next bit to read is bit 0. -/
theorem State.seekStart_readPosition {s : State} (h : 1 ≤ s.len) : s.seekStart.readPosition = 0 := by
  rw [State.readPosition, State.headReadBits, State.seekStart_roff, State.seekStart_rfill, alignedFill_of_pos h]

/-- Settles O40: the answer of each of the two branches, and where `seekStart` leaves the read cursor. -/
theorem rewindResult : Obligations.RewindResult := by
  refine ⟨fun s hh => execRewind_of_running hh, fun s t hh hlen h => ?_, fun s hh => exec_of_halted .rewind hh⟩
  obtain rfl : s.seekStart.respond .ok = t := Host.Outcome.next.inj ((execRewind_of_running hh).symm.trans h)
  exact State.seekStart_readPosition hlen

/-! ### Faults (spec/44_bulk_and_cursor.md R96) -/

/-- Settles O42: the capacity fault is the answer of its branch of LOAD; the other branches set no flag, and all three
commands share the refusal of a halted engine. -/
theorem bulkCommandsFaults : Obligations.BulkCommandsFaults := by
  refine ⟨fun s c hh hcap hc => ?capacity, fun s t h hh => ?load, fun i s t hi h => ?storeOrRewind,
    fun i s _ hh => ⟨s.refuseHalted, exec_of_halted i hh, rfl, rfl, rfl⟩⟩
  case capacity =>
    have hover : withinCapacity s.cap s.lsrcLen = false := hcap ▸ withinCapacity_some_of_lt hc
    exact ⟨_, execLoad_of_overflow hh hover, rfl, rfl, by simp [State.raise_halted, hh], rfl⟩
  case load =>
    rcases execLoad_next h with ⟨hhalted, _⟩ | ⟨_, _, rfl⟩ | ⟨_, _, rfl⟩
    · exact absurd (hh.symm.trans hhalted) Bool.false_ne_true
    · exact .inr rfl
    · exact .inl ⟨rfl, rfl⟩
  case storeOrRewind =>
    rcases hi with rfl | rfl
    · rcases execStore_next h with ⟨hhalted, rfl⟩ | ⟨_, bs, _, rfl⟩
      · exact ⟨rfl, fun hh => absurd (hh.symm.trans hhalted) Bool.false_ne_true⟩
      · exact ⟨rfl, fun _ => rfl⟩
    · rcases execRewind_next h with ⟨hhalted, rfl⟩ | ⟨_, rfl⟩
      · exact ⟨rfl, fun hh => absurd (hh.symm.trans hhalted) Bool.false_ne_true⟩
      · exact ⟨rfl, fun _ => rfl⟩

end Sys2Proof.Machine

/-! Faults and the halted state (spec/60_exceptions.md): the fault a command's checks find, what a presented word is
answered with, halted along a run, and the statements of that chapter they settle. -/

namespace Sys2Proof.Machine

/-! ### Statuses and capacity -/

theorem FaultClass.status_ne_ok (f : FaultClass) : f.status ≠ .ok := by cases f <;> decide

theorem FaultClass.status_ne_errHalted (f : FaultClass) : f.status ≠ .errHalted := by cases f <;> decide

theorem FaultClass.status_injective : Function.Injective FaultClass.status := by
  intro f g
  cases f <;> cases g <;> decide

theorem Status.code_le_five (st : Status) : st.code.toNat ≤ 5 := by cases st <;> decide

theorem withinCapacity_eq_false_iff (cap : Capacity) (len : Nat) :
    withinCapacity cap len = false ↔ ∃ c, cap = some c ∧ c < len := by
  cases cap <;> simp [withinCapacity]

@[simp] theorem State.raise_lastStatus (s : State) (f : FaultClass) : (s.raise f).lastStatus = some f.status := rfl
@[simp] theorem State.refuseHalted_lastStatus (s : State) : s.refuseHalted.lastStatus = some .errHalted := rfl

/-! ### The fault a command's checks find -/

/-- The fault of the first check of a command that fails, in the order of spec/41_write.md R67, spec/42_read.md R75 and
spec/44_bulk_and_cursor.md R90, on an engine that is not halted. `exec_answer` ties it to the meanings. -/
def State.faultOf (s : State) : Instr → Option FaultClass
  | .writeBits w n =>
    if w.bits < n then some .contractViolation
    else if n = 0 then none
    else if withinCapacity s.cap (s.writeBase + s.writeCount n) then none
    else some .capacityOverflow
  | .readBits w n =>
    if w.bits < n then some .contractViolation
    else if s.rfill = 0 then some .contractViolation
    else if s.rcnt < s.readCount n then some .boundsViolation
    else none
  | .load => if withinCapacity s.cap s.lsrcLen then none else some .capacityOverflow
  | .store => none
  | .rewind => none

/-- A command that completes: status OK, no flag, data from a READ_BITS and a STORE only (spec/60_exceptions.md R101, R109). -/
structure CompletesOk (i : Instr) (s t : State) : Prop where
  status : t.lastStatus = some .ok
  eflags : t.eflags = s.eflags
  rdata : (∃ v, t.lastRdata = some v) ↔ ∃ w n, i = .readBits w n
  sdst : (∃ bs, t.lastSdst = some bs) ↔ i = .store

/-- An answer with status OK and no data is the completion of a command that hands out none. -/
theorem CompletesOk.of_respond {i : Instr} {s u : State} (hread : ∀ w n, i ≠ .readBits w n) (hstore : i ≠ .store)
    (hflags : u.eflags = s.eflags) : CompletesOk i s (u.respond .ok) where
  status := rfl
  eflags := hflags
  rdata := iff_of_false nofun fun ⟨w, n, h⟩ => hread w n h
  sdst := iff_of_false nofun hstore

/-- A running engine answers a command with the fault its checks find, or completes it. -/
theorem exec_answer {i : Instr} {s t : State} (hh : s.halted = false) (h : exec i s = .next t) :
    (∃ f, s.faultOf i = some f ∧ t = s.raise f) ∨ (s.faultOf i = none ∧ CompletesOk i s t) := by
  have not_halted {P : Prop} (hhalted : s.halted = true) : P := absurd (hh.symm.trans hhalted) Bool.false_ne_true
  cases i with
  | writeBits w n =>
    rcases execWriteBits_next h with ⟨hhalted, _⟩ | ⟨_, hn, rfl⟩ | ⟨_, hn, rfl, rfl⟩ | ⟨_, hn, h1, hc, rfl⟩ |
      ⟨_, hn, h1, hc, b, _, rfl⟩
    · exact not_halted hhalted
    · exact .inl ⟨_, if_pos hn, rfl⟩
    · exact .inr ⟨by simp [State.faultOf], .of_respond nofun nofun rfl⟩
    · exact .inl ⟨_, by simp [State.faultOf, hn.not_gt, Nat.one_le_iff_ne_zero.1 h1, hc], rfl⟩
    · exact .inr ⟨by simp [State.faultOf, hn.not_gt, hc], .of_respond nofun nofun rfl⟩
  | readBits w n =>
    rcases execReadBits_next h with ⟨hhalted, _⟩ | ⟨_, hc, rfl⟩ | ⟨_, hn, hr, hk, rfl⟩ | ⟨_, hn, hr, hk, q, _, rfl⟩
    · exact not_halted hhalted
    · refine .inl ⟨_, ?_, rfl⟩
      rcases hc with hn | hr
      · exact if_pos hn
      · simp [State.faultOf, hr]
    · exact .inl ⟨_, by simp only [State.faultOf, hn.not_gt, hr, hk, if_false, if_true], rfl⟩
    · exact .inr ⟨by simp only [State.faultOf, hn.not_gt, hr, hk.not_gt, if_false],
        rfl, rfl, iff_of_true ⟨_, rfl⟩ ⟨w, n, rfl⟩, iff_of_false nofun nofun⟩
  | load =>
    rcases execLoad_next h with ⟨hhalted, _⟩ | ⟨_, hc, rfl⟩ | ⟨_, hc, rfl⟩
    · exact not_halted hhalted
    · exact .inl ⟨_, by simp [State.faultOf, hc], rfl⟩
    · exact .inr ⟨by simp [State.faultOf, hc], .of_respond nofun nofun rfl⟩
  | store =>
    rcases execStore_next h with ⟨hhalted, _⟩ | ⟨_, bs, _, rfl⟩
    · exact not_halted hhalted
    · exact .inr ⟨rfl, rfl, rfl, iff_of_false nofun nofun, iff_of_true ⟨bs, rfl⟩ rfl⟩
  | rewind =>
    rcases execRewind_next h with ⟨hhalted, _⟩ | ⟨_, rfl⟩
    · exact not_halted hhalted
    · exact .inr ⟨rfl, .of_respond nofun nofun rfl⟩

/-! ### The fault of a presented word -/

/-- The fault a word raises on an engine that is not halted: an illegal word before any check (spec/60_exceptions.md R110). -/
def State.faultOfWord (s : State) (c : CommandWord) : Option FaultClass :=
  match decode c with
  | .ok i => s.faultOf i
  | .error _ => some .illegalCommand

theorem State.faultOfWord_of_ok (s : State) {c : CommandWord} {i : Instr} (h : decode c = .ok i) :
    s.faultOfWord c = s.faultOf i := by
  rw [State.faultOfWord, h]

theorem State.faultOfWord_of_error (s : State) {c : CommandWord} {e : DecodeError} (h : decode c = .error e) :
    s.faultOfWord c = some .illegalCommand := by
  rw [State.faultOfWord, h]

/-- Every answer to a presented word: the refusal of a halted engine, the fault of the word, or the completion of its
command. -/
theorem runCommand_answer {c : CommandWord} {s t : State} (h : runCommand c s = .next t) :
    (s.halted = true ∧ t = s.refuseHalted) ∨
    (s.halted = false ∧ ∃ f, s.faultOfWord c = some f ∧ t = s.raise f) ∨
    (s.halted = false ∧ s.faultOfWord c = none ∧ ∃ i, decode c = .ok i ∧ CompletesOk i s t) := by
  rcases runCommand_next h with hhalted | ⟨hh, i, hi, hexec⟩ | ⟨hh, e, he, rfl⟩
  · exact .inl hhalted
  · rw [s.faultOfWord_of_ok hi]
    rcases exec_answer hh hexec with hfault | ⟨hnone, hok⟩
    · exact .inr (.inl ⟨hh, hfault⟩)
    · exact .inr (.inr ⟨hh, hnone, i, hi, hok⟩)
  · exact .inr (.inl ⟨hh, _, s.faultOfWord_of_error he, rfl⟩)

/-- A fault's status is answered exactly where the engine runs and the word's first failing check is that fault's. -/
theorem runCommand_lastStatus_eq_fault_iff {c : CommandWord} {s t : State} (h : runCommand c s = .next t)
    (f : FaultClass) : t.lastStatus = some f.status ↔ s.halted = false ∧ s.faultOfWord c = some f := by
  rcases runCommand_answer h with ⟨hh, rfl⟩ | ⟨hh, g, hg, rfl⟩ | ⟨hh, hnone, i, _, hok⟩
  · exact iff_of_false (fun hs => f.status_ne_errHalted (Option.some.inj hs).symm) (by simp [hh])
  · rw [hg, State.raise_lastStatus]
    refine ⟨fun hs => ⟨hh, congrArg some (FaultClass.status_injective (Option.some.inj hs))⟩, ?_⟩
    rintro ⟨_, hgf⟩
    rw [Option.some.inj hgf]
  · rw [hok.status, hnone]
    exact iff_of_false (fun hs => f.status_ne_ok (Option.some.inj hs).symm) nofun

/-- A command that ends with a fault's status has taken that fault and done nothing else (spec/60_exceptions.md R106). -/
theorem runCommand_of_fault_status {c : CommandWord} {s t : State} {f : FaultClass} (h : runCommand c s = .next t)
    (hs : t.lastStatus = some f.status) : s.halted = false ∧ t = s.raise f := by
  obtain ⟨hh, hf⟩ := (runCommand_lastStatus_eq_fault_iff h f).1 hs
  rcases runCommand_answer h with ⟨hhalted, _⟩ | ⟨_, g, hg, rfl⟩ | ⟨_, hnone, _⟩
  · exact absurd (hh.symm.trans hhalted) Bool.false_ne_true
  · exact ⟨hh, by rw [Option.some.inj (hg.symm.trans hf)]⟩
  · exact absurd (hnone.symm.trans hf) nofun

/-- An OK answer is the completion of the word's command. -/
theorem runCommand_of_ok_status {c : CommandWord} {s t : State} (h : runCommand c s = .next t)
    (hs : t.lastStatus = some .ok) : ∃ i, decode c = .ok i ∧ CompletesOk i s t := by
  rcases runCommand_answer h with ⟨_, rfl⟩ | ⟨_, f, _, rfl⟩ | ⟨_, _, hok⟩
  · exact absurd hs nofun
  · exact absurd (Option.some.inj hs) f.status_ne_ok
  · exact hok

theorem runCommand_lastStatus_eq_errHalted_iff {c : CommandWord} {s t : State} (h : runCommand c s = .next t) :
    t.lastStatus = some .errHalted ↔ s.halted = true := by
  rcases runCommand_answer h with ⟨hh, rfl⟩ | ⟨hh, f, _, rfl⟩ | ⟨hh, _, i, _, hok⟩
  · exact iff_of_true rfl hh
  · exact iff_of_false (fun hs => f.status_ne_errHalted (Option.some.inj hs)) (by simp [hh])
  · rw [hok.status]
    exact iff_of_false nofun (by simp [hh])

theorem runCommand_of_illegal {c : CommandWord} {s : State} {e : DecodeError} (hh : s.halted = false)
    (he : decode c = .error e) : runCommand c s = .next (s.raise .illegalCommand) := by
  simp only [runCommand, hh, he, Bool.false_eq_true, if_false]

/-! ### Halted along a run (spec/60_exceptions.md R107) -/

theorem step_command {s : State} {c : CommandWord} {v : Value} {l : List Byte} {rest : List HostEvent}
    (h : s.input = .command c v l :: rest) : step s = runCommand c (s.present rest v l) := by
  simp only [step, h]

/-- What every step keeps holds at the end of every run that answers. -/
theorem runTrace_keeps {P : State → Prop} (hstep : ∀ s t, P s → step s = .next t → P t) {k : Nat} {s t : State}
    {rs : List (Option Response)} (hs : P s) (h : runTrace k s = some (t, rs)) : P t := by
  induction k generalizing s rs with
  | zero =>
    cases h
    exact hs
  | succ k ih =>
    rw [runTrace] at h
    split at h
    · next u hu =>
      split at h
      · next v rs' hrun =>
        cases h
        exact ih (hstep s u hs hu) hrun
      · cases h
    · cases h

/-- A state reached from a halted one by events without a reset, and with no reset still to come. -/
structure State.HaltedAs (s t : State) : Prop where
  stream : t.stream = s.stream
  eflags : t.eflags = s.eflags
  noReset : HostEvent.reset ∉ t.input

theorem State.halted_congr {s t : State} (h : t.eflags = s.eflags) : t.halted = s.halted := by
  rw [State.halted, State.halted, h]

/-- A halted engine is refused every command, so only its ports and the host's list move. -/
theorem step_keeps_haltedAs {s t u : State} (hh : s.halted = true) (ht : s.HaltedAs t) (h : step t = .next u) :
    s.HaltedAs u := by
  obtain ⟨hstream, hflags, hreset⟩ := ht
  rcases step_next h with ⟨_, rfl⟩ | ⟨c, v, l, rest, hin, hc⟩ | ⟨rest, hin, _⟩ | ⟨k, rest, hin, rfl⟩
  · exact ⟨hstream, hflags, hreset⟩
  · have hhalted : (t.present rest v l).halted = true := (State.halted_congr hflags).trans hh
    obtain rfl := Host.Outcome.next.inj ((runCommand_of_halted c hhalted).symm.trans hc)
    exact ⟨hstream, hflags, fun hr => hreset (hin ▸ List.mem_cons_of_mem _ hr)⟩
  · exact absurd (hin ▸ List.mem_cons_self) hreset
  · exact ⟨hstream, hflags, fun hr => hreset (hin ▸ List.mem_cons_of_mem _ hr)⟩

theorem State.staysHalted_of_halted {s : State} (hh : s.halted = true) : s.staysHalted := by
  intro es k t rs hes hrun
  have hstart : s.HaltedAs (s.withInput es) := ⟨rfl, rfl, hes⟩
  obtain ⟨hstream, hflags, _⟩ := runTrace_keeps (fun _ _ => step_keeps_haltedAs hh) hstart hrun
  exact ⟨(State.halted_congr hflags).trans hh, hstream, hflags⟩

/-- Settles O10: the bits by `halted_iff`, permanence along the run, the step of a status read, and STORE refused. -/
theorem haltedIsPermanentUntilReset : Obligations.HaltedIsPermanentUntilReset := by
  refine ⟨State.halted_iff, fun s => State.staysHalted_of_halted, fun s k rest _ h => step_readStatus h,
    fun s t hh h => ?_⟩
  obtain rfl := Host.Outcome.next.inj ((exec_of_halted .store hh).symm.trans h)
  rfl

/-- Settles O9: the halted check is the first of `runCommand` and of every meaning. -/
theorem haltedEngineRefusesEveryWord : Obligations.HaltedEngineRefusesEveryWord := by
  refine ⟨fun s c v l rest hh h => ?_, fun s i hh => exec_of_halted i hh⟩
  exact (step_command h).trans (runCommand_of_halted c (s := s.present rest v l) hh)

/-- Settles O49: the illegal word takes the fault IllegalCommand, which halts. -/
theorem illegalWordHaltsTheEngine : Obligations.IllegalWordHaltsTheEngine := by
  intro s c v l rest hh hin hc
  obtain ⟨e, he⟩ := decode_error_of_not_ok hc
  have hrun := (step_command hin).trans (runCommand_of_illegal (s := s.present rest v l) hh he)
  have hhalted : ((s.present rest v l).raise .illegalCommand).halted = true := by simp [State.raise_halted]
  exact ⟨_, hrun, rfl, rfl, rfl, hhalted, State.staysHalted_of_halted hhalted⟩

/-! ### The causes of each fault (spec/60_exceptions.md R102 to R104) -/

theorem State.faultOf_writeBits_eq_some_iff (s : State) (w : StorageWidth) (n : Nat) (f : FaultClass) :
    s.faultOf (.writeBits w n) = some f ↔
      (w.bits < n ∧ f = .contractViolation) ∨
      (n ≤ w.bits ∧ 1 ≤ n ∧ withinCapacity s.cap (s.writeBase + s.writeCount n) = false ∧ f = .capacityOverflow) := by
  rw [State.faultOf]
  split
  · next hn => simp [hn, hn.not_ge, eq_comm (a := f)]
  next hn =>
  split
  · next h0 => simp [h0]
  next h0 =>
  have h1 : 1 ≤ n := Nat.one_le_iff_ne_zero.2 h0
  split
  · next hc => simp [hn, hc]
  · next hc => simp [hn, h1, hc, Nat.le_of_not_lt hn, eq_comm (a := f)]

theorem State.faultOf_readBits_eq_some_iff (s : State) (w : StorageWidth) (n : Nat) (f : FaultClass) :
    s.faultOf (.readBits w n) = some f ↔
      ((w.bits < n ∨ s.rfill = 0) ∧ f = .contractViolation) ∨
      (n ≤ w.bits ∧ s.rfill ≠ 0 ∧ s.rcnt < s.readCount n ∧ f = .boundsViolation) := by
  rw [State.faultOf]
  split
  · next hn => simp [hn, hn.not_ge, eq_comm (a := f)]
  next hn =>
  split
  · next hr => simp [hr, eq_comm (a := f)]
  next hr =>
  have hr : s.rfill ≠ 0#4 := hr
  split
  · next hk => simp [hn, hr, hk, Nat.le_of_not_lt hn, eq_comm (a := f)]
  · next hk => simp [hn, hr, hk]

theorem State.faultOf_load_eq_some_iff (s : State) (f : FaultClass) :
    s.faultOf .load = some f ↔ withinCapacity s.cap s.lsrcLen = false ∧ f = .capacityOverflow := by
  rw [State.faultOf]
  split
  · next hc => simp [hc]
  · next hc => simp [hc, eq_comm (a := f)]

theorem State.faultOfWord_eq_contract_iff (s : State) (c : CommandWord) :
    s.faultOfWord c = some .contractViolation ↔
      (∃ w n, decode c = .ok (.writeBits w n) ∧ w.bits < n) ∨
      (∃ w n, decode c = .ok (.readBits w n) ∧ (w.bits < n ∨ s.rfill = 0)) := by
  rw [State.faultOfWord]
  cases decode c with
  | error e => simp
  | ok i =>
    cases i with
    | writeBits w n => simp [State.faultOf_writeBits_eq_some_iff]
    | readBits w n => simp [State.faultOf_readBits_eq_some_iff]
    | load => simp [State.faultOf_load_eq_some_iff]
    | store => simp [State.faultOf]
    | rewind => simp [State.faultOf]

theorem State.faultOfWord_eq_bounds_iff (s : State) (c : CommandWord) :
    s.faultOfWord c = some .boundsViolation ↔
      ∃ w n, decode c = .ok (.readBits w n) ∧ n ≤ w.bits ∧ s.rfill ≠ 0 ∧ s.rcnt < s.readCount n := by
  rw [State.faultOfWord]
  cases decode c with
  | error e => simp
  | ok i =>
    cases i with
    | writeBits w n => simp [State.faultOf_writeBits_eq_some_iff]
    | readBits w n => simp [State.faultOf_readBits_eq_some_iff]
    | load => simp [State.faultOf_load_eq_some_iff]
    | store => simp [State.faultOf]
    | rewind => simp [State.faultOf]

theorem State.faultOfWord_eq_capacity_iff (s : State) (c : CommandWord) :
    s.faultOfWord c = some .capacityOverflow ↔
      ∃ cap, s.cap = some cap ∧
        ((∃ w n, decode c = .ok (.writeBits w n) ∧ n ≤ w.bits ∧ 1 ≤ n ∧ cap < s.writeBase + s.writeCount n) ∨
         (decode c = .ok .load ∧ cap < s.lsrc.length)) := by
  rw [State.faultOfWord]
  cases decode c with
  | error e => simp
  | ok i =>
    cases i with
    | writeBits w n => grind [State.faultOf_writeBits_eq_some_iff, withinCapacity_eq_false_iff]
    | readBits w n => simp [State.faultOf_readBits_eq_some_iff]
    | load => simp [State.faultOf_load_eq_some_iff, withinCapacity_eq_false_iff, State.lsrcLen]
    | store => simp [State.faultOf]
    | rewind => simp [State.faultOf]

/-- Settles O46: the cause is where the word's fault is a contract violation, the effect that fault's entry, which halts. -/
theorem contractViolationCauses : Obligations.ContractViolationCauses := by
  intro c s t h
  refine ⟨(runCommand_lastStatus_eq_fault_iff h .contractViolation).trans
    (and_congr_right' (s.faultOfWord_eq_contract_iff c)), fun hs => ?_⟩
  obtain ⟨_, rfl⟩ := runCommand_of_fault_status (f := .contractViolation) h hs
  have hhalted : (s.raise .contractViolation).halted = true := by simp [State.raise_halted]
  exact ⟨rfl, rfl, rfl, hhalted, State.staysHalted_of_halted hhalted⟩

/-- Settles O47: the cause is where the word's fault is a bounds violation, the effect that fault's entry, which does not
halt. -/
theorem boundsViolationCause : Obligations.BoundsViolationCause := by
  intro c s t h
  refine ⟨(runCommand_lastStatus_eq_fault_iff h .boundsViolation).trans
    (and_congr_right' (s.faultOfWord_eq_bounds_iff c)), fun hs => ?_⟩
  obtain ⟨hh, rfl⟩ := runCommand_of_fault_status (f := .boundsViolation) h hs
  exact ⟨rfl, rfl, rfl, by simp [State.raise_halted, hh], rfl⟩

/-- Settles O48: the cause is where the word's fault is a capacity overflow, which asks for a `CAP` that is a number; the
effect is that fault's entry, which does not halt. -/
theorem capacityOverflowCauses : Obligations.CapacityOverflowCauses := by
  intro c s t h
  have hcause := (runCommand_lastStatus_eq_fault_iff h .capacityOverflow).trans
    (and_congr_right' (s.faultOfWord_eq_capacity_iff c))
  refine ⟨hcause, fun hs => ?effect, fun hcap hs => ?unbounded⟩
  case effect =>
    obtain ⟨hh, rfl⟩ := runCommand_of_fault_status (f := .capacityOverflow) h hs
    exact ⟨rfl, rfl, by simp [State.raise_halted, hh]⟩
  case unbounded =>
    obtain ⟨_, cap, hsome, _⟩ := hcause.1 hs
    exact absurd (hcap.symm.trans hsome) nofun

/-! ### Statuses, flags and data (spec/60_exceptions.md R101, R106, R109, R110) -/

/-- Settles O45: the answers of a presented word, each with its status and its flag; a fault's status is answered by that
fault's entry alone. -/
theorem statusCodeTable : Obligations.StatusCodeTable := by
  refine ⟨by decide, fun c s t h => ?answered, fun c s t hh h => ?flags, fun c s t h =>
    ⟨runCommand_lastStatus_eq_errHalted_iff h, fun hs => ?refused⟩⟩
  case answered =>
    rcases runCommand_answer h with ⟨_, rfl⟩ | ⟨_, f, _, rfl⟩ | ⟨_, _, i, _, hok⟩
    · exact ⟨_, rfl, Status.code_le_five _⟩
    · exact ⟨_, rfl, Status.code_le_five _⟩
    · exact ⟨_, hok.status, Status.code_le_five _⟩
  case flags =>
    have raised (f : FaultClass) (hs : t.lastStatus = some f.status) : t.eflags = s.eflags ||| f.flag ∧
        t.halted = (decide (f = .contractViolation) || decide (f = .illegalCommand)) := by
      obtain ⟨_, rfl⟩ := runCommand_of_fault_status h hs
      exact ⟨rfl, by rw [State.raise_halted, hh, Bool.false_or]⟩
    refine ⟨fun hs => ?_, raised .contractViolation, raised .boundsViolation, raised .capacityOverflow,
      raised .illegalCommand⟩
    obtain ⟨i, _, hok⟩ := runCommand_of_ok_status h hs
    exact hok.eflags
  case refused =>
    have hh := (runCommand_lastStatus_eq_errHalted_iff h).1 hs
    obtain rfl := Host.Outcome.next.inj ((runCommand_of_halted c hh).symm.trans h)
    rfl

/-- A command changes `EFLAGS` only by taking a fault. -/
theorem runCommand_eflags {c : CommandWord} {s t : State} (h : runCommand c s = .next t) :
    t.eflags = s.eflags ∨ ∃ f, t = s.raise f := by
  rcases runCommand_answer h with ⟨_, rfl⟩ | ⟨_, f, _, rfl⟩ | ⟨_, _, i, _, hok⟩
  · exact .inl rfl
  · exact .inr ⟨f, rfl⟩
  · exact .inl hok.eflags

/-- A step changes `EFLAGS` by reset or by a command that takes a fault, and in no other way (spec/10_state.md R15). -/
theorem step_eflags {s t : State} (h : step s = .next t) :
    t.eflags = s.eflags ∨ (∃ rest, s.input = .reset :: rest ∧ t.eflags = 0) ∨
    (∃ c v l rest f, s.input = .command c v l :: rest ∧ t = (s.present rest v l).raise f) := by
  rcases step_next h with ⟨_, rfl⟩ | ⟨c, v, l, rest, hin, hc⟩ | ⟨rest, hin, rfl⟩ | ⟨k, rest, _, rfl⟩
  · exact .inl rfl
  · rcases runCommand_eflags hc with hflags | ⟨f, rfl⟩
    · exact .inl hflags
    · exact .inr (.inr ⟨c, v, l, rest, f, hin, rfl⟩)
  · exact .inr (.inl ⟨rest, hin, rfl⟩)
  · exact .inl rfl

/-- Settles O50: the state after a fault's status is that fault's entry; a flag of `EFLAGS` moves only along `step_eflags`,
where a fault clears none and sets its own. -/
theorem faultEntryIsPrecise : Obligations.FaultEntryIsPrecise := by
  refine ⟨fun c s t f h hs => ?entry, fun s t j h hset hclear => ?sticky, fun s t j h hclear hset => ?setter,
    ⟨rfl, rfl, rfl, rfl⟩, State.halted_iff⟩
  case entry =>
    obtain ⟨_, rfl⟩ := runCommand_of_fault_status h hs
    exact ⟨rfl, rfl, getLsbD_setFlag s.eflags f, rfl, rfl⟩
  case sticky =>
    rcases step_eflags h with heq | ⟨rest, hin, _⟩ | ⟨c, v, l, rest, f, _, rfl⟩
    · rw [heq, hset] at hclear
      cases hclear
    · exact ⟨rest, hin⟩
    · rw [State.raise_eflags, getLsbD_setFlag, State.present_eflags, hset] at hclear
      cases hclear
  case setter =>
    rcases step_eflags h with heq | ⟨rest, _, hzero⟩ | ⟨c, v, l, rest, f, hin, rfl⟩
    · rw [heq, hclear] at hset
      cases hset
    · rw [hzero] at hset
      exact absurd hset (by simp)
    · rw [State.raise_eflags, getLsbD_setFlag, State.present_eflags, hclear, Bool.false_or] at hset
      exact ⟨c, v, l, rest, f, hin, rfl, of_decide_eq_true hset⟩

/-- Settles O51: neither the refusal nor a fault hands out data; an OK answer completes the one command of its word. -/
theorem dataOnlyInAnOkResponse : Obligations.DataOnlyInAnOkResponse := by
  intro c s t h
  rcases runCommand_answer h with ⟨_, rfl⟩ | ⟨_, f, _, rfl⟩ | ⟨_, _, i, hi, hok⟩
  · exact ⟨iff_of_false nofun nofun, iff_of_false nofun nofun⟩
  · have hnot : (s.raise f).lastStatus ≠ some .ok := fun hs => f.status_ne_ok (Option.some.inj hs)
    exact ⟨iff_of_false nofun fun hs => hnot hs.1, iff_of_false nofun fun hs => hnot hs.1⟩
  · rw [hok.rdata, hok.sdst, hi]
    simp [hok.status]

/-- The status R110's order chooses: the refusal first, then the word's fault, then OK. -/
def State.statusOfWord (s : State) (c : CommandWord) : Status :=
  if s.halted then .errHalted else (s.faultOfWord c).elim .ok FaultClass.status

theorem runCommand_lastStatus {c : CommandWord} {s t : State} (h : runCommand c s = .next t) :
    t.lastStatus = some (s.statusOfWord c) := by
  rcases runCommand_answer h with ⟨hh, rfl⟩ | ⟨hh, f, hf, rfl⟩ | ⟨hh, hnone, i, _, hok⟩
  · simp [State.statusOfWord, hh]
  · simp [State.statusOfWord, hh, hf]
  · simp [State.statusOfWord, hh, hnone, hok.status]

/-- Settles O52: under the invariants the word is answered; its status is `statusOfWord`, which takes the branches of R110
one by one, and its flag is read off the answer. -/
theorem oneResponseByPriority : Obligations.OneResponseByPriority := by
  intro c s hinv
  obtain ⟨t, h⟩ := runCommand_answers hinv c
  refine ⟨t, s.statusOfWord c, h, runCommand_lastStatus h, ?priority, ?flags⟩
  case priority =>
    rw [State.statusOfWord, State.faultOfWord]
    congr 1
    cases decode c with
    | error e => rfl
    | ok i =>
      cases i with
      | writeBits w n => simp only [State.faultOf]; split_ifs <;> rfl
      | readBits w n => simp only [State.faultOf]; split_ifs <;> rfl
      | load => unfold State.faultOf State.lsrcLen; split_ifs <;> rfl
      | store => rfl
      | rewind => rfl
  case flags =>
    have hstatus := runCommand_lastStatus h
    rcases runCommand_answer h with ⟨_, rfl⟩ | ⟨_, f, _, rfl⟩ | ⟨_, _, i, _, hok⟩
    · rw [← Option.some.inj hstatus]
      exact BitVec.or_zero.symm
    · rw [← Option.some.inj hstatus]
      cases f <;> rfl
    · rw [← Option.some.inj (hok.status.symm.trans hstatus)]
      exact hok.eflags.trans BitVec.or_zero.symm

end Sys2Proof.Machine

/-! Reset (spec/70_reset_and_hazards.md R120): the step that asserts it, and the only exit from the halted state. -/

namespace Sys2Proof.Machine

theorem step_reset {s : State} {rest : List HostEvent} (h : s.input = .reset :: rest) :
    step s = .next (s.resetInput rest) := by
  simp only [step, h]

/-- A step from a halted engine keeps it halted or asserts reset: what a step does to `EFLAGS` short of reset clears no
flag. -/
theorem step_of_halted {s t : State} (hh : s.halted = true) (h : step s = .next t) :
    t.halted = true ∨ ∃ rest, s.input = .reset :: rest := by
  rcases step_eflags h with heq | ⟨rest, hin, _⟩ | ⟨c, v, l, rest, f, _, rfl⟩
  · exact .inl ((State.halted_congr heq).trans hh)
  · exact .inr ⟨rest, hin⟩
  · exact .inl (by simp [State.raise_halted, hh])

/-- Settles O12: the step of reset answers `State.resetInput`, whose fields are given by its laws; a step that leaves the
halted state is the second alternative of `step_of_halted`. -/
theorem resetInputClearsEverything : Obligations.ResetInputClearsEverything := by
  refine ⟨fun s rest h => ⟨s.resetInput rest, step_reset h, ?registers⟩, fun s t hh h hexit => ?exit⟩
  case registers => simp
  case exit => exact (step_of_halted hh h).resolve_left (by simp [hexit])

end Sys2Proof.Machine

/-! The word of a command and what the decoder makes of it (spec/30_encoding.md): the two directions of encoding, the words
by mask, the assembler's table, and the statements of that chapter they settle. -/

namespace Sys2Proof

/-! ### Encoding, then decoding -/

theorem decode_encode_writeBits (w : StorageWidth) {n : Nat} (hn : n ≤ 127) :
    decode (encode (.writeBits w n)) = .ok (.writeBits w n) := by
  have hlt : n % 2 ^ 7 = n := Nat.mod_eq_of_lt (by omega)
  rw [encode, decode_eq_ok_iff, fieldZ_formatC, fieldOp_formatC, fieldSz_formatC, fieldNbits_formatC,
    StorageWidth.ofSz_sz, BitVec.toNat_ofNat, hlt]
  exact ⟨rfl, .inl ⟨rfl, rfl⟩⟩

theorem decode_encode {i : Instr} (h : i.WellFormed) : decode (encode i) = .ok i := by
  cases i with
  | writeBits w n => exact decode_encode_writeBits w h
  | readBits w n => exact decode_encode_readBits w h
  | load => rfl
  | store => rfl
  | rewind => rfl

/-- Settles O1: command by command, each field of the word being the operand it was made from. -/
theorem decodeOfEncodeIsIdentity : Obligations.DecodeOfEncodeIsIdentity := fun _ => decode_encode

/-! ### Decoding, then encoding -/

theorem StorageWidth.sz_ofSz (sz : BitVec 2) : (StorageWidth.ofSz sz).sz = sz := by
  revert sz
  decide

/-- A word whose reserved field is 0 is its other three fields side by side (spec/30_encoding.md R46). -/
theorem formatC_fields {c : CommandWord} (hz : fieldZ c = 0) : formatC (fieldOp c) (fieldSz c) (fieldNbits c) = c := by
  have hz : c.toNat / 2 ^ 7 % 2 ^ 3 = 0 := by rw [← toNat_fieldZ, hz]; rfl
  have hlt := c.isLt
  apply BitVec.eq_of_toNat_eq
  rw [toNat_formatC, toNat_fieldOp, toNat_fieldSz, toNat_fieldNbits]
  omega

/-- Each opcode's word has that opcode, and what the operands were read from stands in its other fields. -/
theorem encode_of_decode {c : CommandWord} {i : Instr} (h : decode c = .ok i) : encode i = c := by
  obtain ⟨hz, hcases⟩ := decode_eq_ok_iff.1 h
  have hword := formatC_fields hz
  rcases hcases with ⟨hop, rfl⟩ | ⟨hop, rfl⟩ | ⟨⟨hop, hsz, hn⟩, rfl⟩ | ⟨⟨hop, hsz, hn⟩, rfl⟩ |
    ⟨⟨hop, hsz, hn⟩, rfl⟩
  · rwa [encode, StorageWidth.sz_ofSz, BitVec.ofNat_toNat, BitVec.setWidth_eq, ← hop]
  · rwa [encode, StorageWidth.sz_ofSz, BitVec.ofNat_toNat, BitVec.setWidth_eq, ← hop]
  all_goals rwa [hop, hsz, hn] at hword

theorem wellFormed_of_decode {c : CommandWord} {i : Instr} (h : decode c = .ok i) : i.WellFormed := by
  have hn : (fieldNbits c).toNat ≤ 127 := Nat.le_of_lt_succ (fieldNbits c).isLt
  obtain ⟨_, ⟨_, rfl⟩ | ⟨_, rfl⟩ | ⟨_, rfl⟩ | ⟨_, rfl⟩ | ⟨_, rfl⟩⟩ := decode_eq_ok_iff.1 h
  · exact hn
  · exact hn
  all_goals exact Nat.zero_le 127

/-- Settles O2: the bit count comes out of a 7-bit field, and the word is its own fields put together again. -/
theorem encodeOfDecodedWord : Obligations.EncodeOfDecodedWord :=
  fun _ _ h => ⟨wellFormed_of_decode h, encode_of_decode h⟩

theorem decode_eq_ok_iff_encode {c : CommandWord} {i : Instr} (hi : i.WellFormed) : decode c = .ok i ↔ c = encode i :=
  ⟨fun h => (encode_of_decode h).symm, fun h => h ▸ decode_encode hi⟩

/-! ### The words by mask (spec/30_encoding.md R53) -/

/-- R53's mask keeps the field `OP`, all ones there. -/
theorem fieldOp_and_mask (c : CommandWord) : fieldOp (c &&& 0xF380) = fieldOp c := by
  rw [fieldOp, BitVec.extractLsb'_and]
  exact BitVec.and_allOnes

/-- R53's mask keeps the field `Z`, all ones there. -/
theorem fieldZ_and_mask (c : CommandWord) : fieldZ (c &&& 0xF380) = fieldZ c := by
  rw [fieldZ, BitVec.extractLsb'_and]
  exact BitVec.and_allOnes

theorem fieldSz_and_mask (c : CommandWord) : fieldSz (c &&& 0xF380) = 0 := by
  rw [fieldSz, BitVec.extractLsb'_and]
  exact BitVec.and_zero

theorem fieldNbits_and_mask (c : CommandWord) : fieldNbits (c &&& 0xF380) = 0 := by
  rw [fieldNbits, BitVec.extractLsb'_and]
  exact BitVec.and_zero

/-- Masked, a word is the match of an opcode exactly when it has that opcode and a reserved field of 0. -/
theorem and_mask_eq_formatC_iff (c : CommandWord) (op : BitVec 4) :
    c &&& 0xF380 = formatC op 0 0 ↔ fieldZ c = 0 ∧ fieldOp c = op := by
  constructor
  · intro h
    rw [← fieldZ_and_mask, ← fieldOp_and_mask, h]
    exact ⟨fieldZ_formatC .., fieldOp_formatC ..⟩
  · rintro ⟨hz, rfl⟩
    have hword := formatC_fields ((fieldZ_and_mask c).trans hz)
    rw [fieldOp_and_mask, fieldSz_and_mask, fieldNbits_and_mask] at hword
    exact hword.symm

theorem decode_eq_writeBits_iff (c : CommandWord) :
    (∃ w n, decode c = .ok (.writeBits w n)) ↔ c &&& 0xF380 = 0x1000 := by
  refine Iff.trans ?_ (and_mask_eq_formatC_iff c 1).symm
  simp [decode_eq_ok_iff]

theorem decode_eq_readBits_iff (c : CommandWord) :
    (∃ w n, decode c = .ok (.readBits w n)) ↔ c &&& 0xF380 = 0x2000 := by
  refine Iff.trans ?_ (and_mask_eq_formatC_iff c 2).symm
  simp [decode_eq_ok_iff]

theorem decode_eq_load_iff (c : CommandWord) : decode c = .ok .load ↔ c = 0x4000 :=
  decode_eq_ok_iff_encode (Nat.zero_le 127)

theorem decode_eq_store_iff (c : CommandWord) : decode c = .ok .store ↔ c = 0x5000 :=
  decode_eq_ok_iff_encode (Nat.zero_le 127)

theorem decode_eq_rewind_iff (c : CommandWord) : decode c = .ok .rewind ↔ c = 0x6000 :=
  decode_eq_ok_iff_encode (Nat.zero_le 127)

/-- Settles O4: each class by its own equivalence; a word is rejected exactly when it is the word of no command. -/
theorem wordsAreClassifiedByMask : Obligations.WordsAreClassifiedByMask := by
  intro c
  refine ⟨decode_eq_writeBits_iff c, decode_eq_readBits_iff c, decode_eq_load_iff c, decode_eq_store_iff c,
    decode_eq_rewind_iff c, ?_⟩
  rw [ne_eq, ne_eq, ← decode_eq_writeBits_iff, ← decode_eq_readBits_iff, ne_eq, ne_eq, ne_eq, ← decode_eq_load_iff,
    ← decode_eq_store_iff, ← decode_eq_rewind_iff]
  cases hd : decode c with
  | error e => simp
  | ok i => cases i <;> simp

/-- Settles O5: every one of the eleven words is a fixed value, so the decoder is evaluated on it. -/
theorem sampleWordsDecode : Obligations.SampleWordsDecode := by
  unfold Obligations.SampleWordsDecode
  decide

/-! ### The words of the assembler's table (spec/30_encoding.md R57) -/

/-- A word of format C as the table writes it: the opcode's word with `SZ << 10` and `NBITS` merged in. -/
theorem formatC_eq_ofNat (op : BitVec 4) (sz : BitVec 2) (n : BitVec 7) :
    formatC op sz n = BitVec.ofNat 16 (op.toNat <<< 12 ||| sz.toNat <<< 10 ||| n.toNat) := by
  apply BitVec.eq_of_toNat_eq
  simp [formatC, Nat.shiftLeft_eq, Nat.mod_mul_mod]

theorem encode_writeBits (w : StorageWidth) {n : Nat} (hn : n ≤ 127) :
    encode (.writeBits w n) = BitVec.ofNat 16 (0x1000 ||| w.sz.toNat <<< 10 ||| n) := by
  have hlt : n % 2 ^ 7 = n := Nat.mod_eq_of_lt (by omega)
  rw [encode, formatC_eq_ofNat, BitVec.toNat_ofNat, hlt]
  rfl

theorem encode_readBits (w : StorageWidth) {n : Nat} (hn : n ≤ 127) :
    encode (.readBits w n) = BitVec.ofNat 16 (0x2000 ||| w.sz.toNat <<< 10 ||| n) := by
  have hlt : n % 2 ^ 7 = n := Nat.mod_eq_of_lt (by omega)
  rw [encode, formatC_eq_ofNat, BitVec.toNat_ofNat, hlt]
  rfl

end Sys2Proof

namespace Sys2Proof.Machine

/-- The numbers of the bytes of a LOAD line are the bytes again. -/
theorem assemble_load (bs : List Byte) : assemble (.load (bs.map BitVec.toNat)) = some (.command 0x4000 0 bs) := by
  have hrange : (bs.map BitVec.toNat).all (· < 256) = true := by simpa using fun b _ => BitVec.isLt b
  have hbytes : (bs.map BitVec.toNat).map (BitVec.ofNat 8) = bs := by simp [Function.comp_def]
  rw [assemble, if_pos hrange, hbytes]
  rfl

/-- Settles O7: the word of each line is its encoding with the opcode, the width and the count written as numbers. -/
theorem assemblerTableWords : Obligations.AssemblerTableWords := by
  refine ⟨fun w v n hv hn => ?_, fun w n hn => ?_, assemble_load, rfl, rfl⟩
  · rw [assemble, if_pos ⟨hv, hn⟩, encode_writeBits w hn]
  · rw [assemble, if_pos hn, encode_readBits w hn]

/-- The halted check of a presented word refuses what its command's own first check refuses. -/
theorem step_of_decode {s : State} {c : CommandWord} {v : Value} {l : List Byte} {rest : List HostEvent} {i : Instr}
    (hin : s.input = .command c v l :: rest) (hi : decode c = .ok i) : step s = exec i (s.present rest v l) := by
  rw [step_command hin, runCommand]
  split
  · next hh => exact (exec_of_halted i hh).symm
  · rw [hi]

/-- Settles O8: `State.present` is the state with the operands on their ports and the event off the host's list. -/
theorem stepRunsTheDecodedCommand : Obligations.StepRunsTheDecodedCommand := fun _ _ _ _ _ _ => step_of_decode

end Sys2Proof.Machine

/-! The invariants of spec/10_state.md R16 at reset and along every step, the canonical form of the buffer, and the
statements they settle. -/

namespace Sys2Proof.Machine

/-- Settles O55: `step_inv`, which has a case for every event of the host and every effect of a command. -/
theorem stepKeepsTheInvariants : Obligations.StepKeepsTheInvariants := fun _ _ => step_inv

/-- Settles O57: under the invariants no rule asks for an absent byte, the one reason of a fault. -/
theorem stepAlwaysAnswers : Obligations.StepAlwaysAnswers := fun _ => step_answers

/-- Settles O54: the empty buffer with both fills 0 has the invariants, whatever `CAP` is. -/
theorem invariantsHoldAfterReset : Obligations.InvariantsHoldAfterReset :=
  ⟨State.resetWith_inv Config.resetCap, State.resetWith_inv⟩

/-! ### The canonical form -/

/-- A command keeps the canonical form: the two that change the buffer do, by `MemWrite` and by a load. -/
theorem exec_mem_wf {i : Instr} {s t : State} (hs : s.mem.wf) (h : exec i s = .next t) : t.mem.wf := by
  cases i with
  | writeBits w n =>
    rcases execWriteBits_stream h with heq | ⟨_, _, b, _, heq⟩ <;>
      obtain ⟨hmem, _⟩ := State.stream_eq_iff.1 heq <;> rw [hmem]
    · exact hs
    · exact Memory.wf_writeNat _ _ _ hs
  | readBits w n => rwa [(exec_buffer_frame (.inl ⟨w, n, rfl⟩) h).1]
  | load =>
    rcases execLoad_stream h with heq | ⟨_, heq⟩ <;> obtain ⟨hmem, _⟩ := State.stream_eq_iff.1 heq <;> rw [hmem]
    · exact hs
    · exact Memory.wf_ofBytes 0 s.lsrc
  | store => rwa [(exec_buffer_frame (.inr (.inl rfl)) h).1]
  | rewind => rwa [(exec_buffer_frame (.inr (.inr rfl)) h).1]

theorem runCommand_mem_wf {c : CommandWord} {s t : State} (hs : s.mem.wf) (h : runCommand c s = .next t) : t.mem.wf := by
  rcases runCommand_next h with ⟨_, rfl⟩ | ⟨_, i, _, hi⟩ | ⟨_, e, _, rfl⟩
  · exact hs
  · exact exec_mem_wf hs hi
  · exact hs

/-- Settles O21: a command by `runCommand_mem_wf`; reset empties the buffer, and no other event touches it. -/
theorem stepKeepsCanonicalMemory : Obligations.StepKeepsCanonicalMemory := by
  intro s t hs h
  rcases step_next h with ⟨_, rfl⟩ | ⟨c, v, l, rest, _, hc⟩ | ⟨rest, _, rfl⟩ | ⟨k, rest, _, rfl⟩
  · exact hs
  · exact runCommand_mem_wf (s := s.present rest v l) hs hc
  · exact List.Pairwise.nil
  · exact hs

end Sys2Proof.Machine

/-! The buffer as numbers (spec/20_memory.md): `MemRead` as a sum, fields of the bit string, and the statements of that
chapter they settle. -/

namespace Sys2Proof.Machine

/-! ### `MemRead` as the sum of its bytes (spec/20_memory.md R33) -/

theorem Memory.readNat_eq_sum {m : Memory} {a n v : Nat} (h : m.readNat a n = some v) :
    v = ∑ i ∈ Finset.range n, ((m.read (a + i)).getD 0).toNat <<< (8 * i) := by
  induction n generalizing a v with
  | zero => cases h; rfl
  | succ n ih =>
    rw [Memory.readNat] at h
    split at h
    · next b w hb hw =>
      cases h
      rw [Finset.sum_range_succ', ih hw, Finset.mul_sum, Nat.add_comm]
      congr 1
      · refine Finset.sum_congr rfl fun i _ => ?_
        rw [Nat.shiftLeft_eq, Nat.shiftLeft_eq, Nat.mul_left_comm, show a + 1 + i = a + (i + 1) by omega,
          show 8 * (i + 1) = 8 + 8 * i by omega, Nat.pow_add]
      · simp [hb]
    · cases h

/-- Settles O19: in a dense buffer every byte of the run is there, so `MemRead` answers, and with the sum. -/
theorem memReadIsALittleEndianSum : Obligations.MemReadIsALittleEndianSum := by
  intro s a n hdense hn
  obtain ⟨v, hv⟩ := Memory.readNat_of_indices hdense hn
  rw [hv, ← Memory.readNat_eq_sum hv]

/-! ### Fields of the bit string (spec/20_memory.md R43) -/

/-- Shift and mask take a field out of a run of bytes. -/
theorem Memory.readNat_field {m : Memory} {a k v : Nat} (hv : m.readNat a k = some v) {h n : Nat} (hn : h + n ≤ 8 * k) :
    (v >>> h) % 2 ^ n = m.streamBits (8 * a + h) n := by
  refine Nat.eq_of_testBit_eq fun i => ?_
  rw [Nat.testBit_mod_two_pow, Nat.testBit_shiftRight, Memory.testBit_readNat hv, Memory.testBit_streamBits, Nat.add_assoc]
  by_cases hi : i < n
  · have hin : h + i < 8 * k := by omega
    simp [hin]
  · simp [hi]

theorem Memory.readNat_eq_streamBits {m : Memory} {a k v : Nat} (hv : m.readNat a k = some v) :
    v = m.streamBits (8 * a) (8 * k) := by
  have hlt : v < 2 ^ (8 * k) := Nat.pow_mul 2 8 k ▸ Memory.readNat_lt hv
  have hfield := Memory.readNat_field hv (h := 0) (n := 8 * k) (Nat.zero_add _).le
  rwa [Nat.shiftRight_zero, Nat.mod_eq_of_lt hlt, Nat.add_zero] at hfield

theorem Memory.streamBits_add (m : Memory) (p a b : Nat) :
    m.streamBits p (a + b) = m.streamBits p a + 2 ^ a * m.streamBits (p + a) b := by
  induction b with
  | zero => rfl
  | succ b ih =>
    rw [← Nat.add_assoc, Memory.streamBits, Memory.streamBits, ih, Nat.mul_add, Nat.add_assoc, Nat.add_assoc p,
      Nat.shiftLeft_eq, Nat.shiftLeft_eq, Nat.pow_add, Nat.mul_left_comm]

/-- Settles O20: the field inside a run, the whole run as a field, and a field in two parts, one lemma each. -/
theorem memReadIsAFieldOfTheBitString : Obligations.MemReadIsAFieldOfTheBitString :=
  ⟨fun _ _ _ _ hv => ⟨Memory.readNat_eq_streamBits hv, fun _ _ => Memory.readNat_field hv⟩, Memory.streamBits_add⟩

end Sys2Proof.Machine

/-! What a command does not look at: the ports of other commands (spec/30_encoding.md R50, R51), and for a read the bytes
outside the read region and the write cursor; the statements that say so. -/

namespace Sys2Proof.Machine

/-! ### A change of the state that a command passes over -/

/-- READ_BITS answers alike before and after a change `g` of the state that leaves what the read looks at, halted, the read
cursor and the bytes of its region, and that what a read writes passes through. -/
theorem execReadBits_commutes {g : State → State} {w : StorageWidth} {n : Nat} {s : State}
    (hhalted : (g s).halted = s.halted) (hrfill : (g s).rfill = s.rfill) (hregion : (g s).readRegion = s.readRegion)
    (hbytes : s.readCount n ≤ s.rcnt → (g s).mem.readNat s.roff (s.readCount n) = s.mem.readNat s.roff (s.readCount n))
    (hrefuse : (g s).refuseHalted = g s.refuseHalted) (hraise : ∀ f, (g s).raise f = g (s.raise f))
    (hafter : ∀ v, ((g s).afterRead n).respondValue v = g ((s.afterRead n).respondValue v)) :
    execReadBits w n (g s) = mapNext g (execReadBits w n s) := by
  have hhead : (g s).headReadBits = s.headReadBits := by rw [State.headReadBits, hrfill]; rfl
  have hcount : (g s).readCount n = s.readCount n := by rw [State.readCount, hhead]; rfl
  simp only [execReadBits, apply_ite (mapNext g), hhalted, hrfill, hregion, hcount, hhead, hrefuse, hraise, hafter]
  refine ite_congr rfl (fun _ => rfl) fun _ => ite_congr rfl (fun _ => rfl) fun _ =>
    ite_congr rfl (fun _ => rfl) fun _ => ?_
  split
  · rfl
  · next r hr =>
    obtain ⟨hle, rfl⟩ := (Region.subspan2_eq_some_iff ..).1 hr
    have hle : s.readCount n ≤ s.rcnt := by simpa [State.readRegion] using hle
    simp only [State.readRegion, Nat.add_zero, hbytes hle]
    cases s.mem.readNat s.roff (s.readCount n) with
    | some q => rfl
    | none => rfl

/-- STORE answers alike before and after a change that leaves the halted state, the buffer and its length. -/
theorem execStore_commutes {g : State → State} {s : State} (hhalted : (g s).halted = s.halted) (hmem : (g s).mem = s.mem)
    (hlen : (g s).len = s.len) (hrefuse : (g s).refuseHalted = g s.refuseHalted)
    (hafter : ∀ bs, (g s).respondBytes bs = g (s.respondBytes bs)) :
    execStore (g s) = mapNext g (execStore s) := by
  simp only [execStore, apply_ite (mapNext g), hhalted, hmem, hlen, hrefuse, hafter]
  refine ite_congr rfl (fun _ => rfl) fun _ => ?_
  cases s.mem.readBytes 0 s.len with
  | some bs => rfl
  | none => rfl

/-- REWIND answers alike before and after a change that leaves the halted state and that `seekStart` passes through. -/
theorem execRewind_commutes {g : State → State} {s : State} (hhalted : (g s).halted = s.halted)
    (hrefuse : (g s).refuseHalted = g s.refuseHalted) (hafter : (g s).seekStart.respond .ok = g (s.seekStart.respond .ok)) :
    execRewind (g s) = mapNext g (execRewind s) := by
  simp only [execRewind, apply_ite (mapNext g), hhalted, hrefuse, hafter]
  rfl

/-! ### The ports -/

theorem execLoad_with_wdata (s : State) (v : Value) :
    execLoad { s with wdata := v } = mapNext (fun t => { t with wdata := v }) (execLoad s) := by
  simp only [execLoad, apply_ite (mapNext _)]
  rfl

theorem execWriteBits_with_lsrc (w : StorageWidth) (n : Nat) (s : State) (l : List Byte) :
    execWriteBits w n { s with lsrc := l } = mapNext (fun t => { t with lsrc := l }) (execWriteBits w n s) := by
  simp only [execWriteBits, apply_ite (mapNext _)]
  refine ite_congr rfl (fun _ => rfl) fun _ => ite_congr rfl (fun _ => rfl) fun _ => ite_congr rfl (fun _ => rfl) fun _ =>
    ite_congr rfl (fun _ => rfl) fun _ => ?_
  have hread : State.reclaimedByte { s with lsrc := l } = s.reclaimedByte := rfl
  rw [hread]
  cases s.reclaimedByte with
  | some b => rfl
  | none => rfl

/-- Settles O14: command by command, that with another value on the port it does not use every check and every effect is
the same. -/
theorem unusedPortsAreIgnored : Obligations.UnusedPortsAreIgnored := by
  refine ⟨fun i s v hi => ?wdata, fun i s l hi => ?lsrc⟩
  case wdata =>
    cases i with
    | writeBits w n => exact absurd rfl (hi w n)
    | readBits w n =>
      exact execReadBits_commutes (g := fun t => { t with wdata := v }) rfl rfl rfl (fun _ => rfl) rfl (fun _ => rfl)
        fun _ => rfl
    | load => exact execLoad_with_wdata s v
    | store => exact execStore_commutes (g := fun t => { t with wdata := v }) rfl rfl rfl rfl fun _ => rfl
    | rewind => exact execRewind_commutes (g := fun t => { t with wdata := v }) rfl rfl rfl
  case lsrc =>
    cases i with
    | writeBits w n => exact execWriteBits_with_lsrc w n s l
    | readBits w n =>
      exact execReadBits_commutes (g := fun t => { t with lsrc := l }) rfl rfl rfl (fun _ => rfl) rfl (fun _ => rfl)
        fun _ => rfl
    | load => exact absurd rfl hi
    | store => exact execStore_commutes (g := fun t => { t with lsrc := l }) rfl rfl rfl rfl fun _ => rfl
    | rewind => exact execRewind_commutes (g := fun t => { t with lsrc := l }) rfl rfl rfl

/-! ### What a read does not look at -/

/-- Settles O18: the bytes a read touches lie in its region, where the two buffers agree. -/
theorem readingIgnoresBytesOutsideTheRegion : Obligations.ReadingIgnoresBytesOutsideTheRegion := by
  intro w n s m hm
  refine execReadBits_commutes (g := fun t => { t with mem := m }) rfl rfl rfl (fun hle => ?_) rfl (fun _ => rfl)
    fun _ => rfl
  exact Memory.readNat_congr fun i hi => hm (s.roff + i) (Nat.le_add_right ..) (by omega)

/-- Settles O35: no check and no effect of a read looks at `WFILL` or `LEN`. -/
theorem readingIgnoresTheWriteCursor : Obligations.ReadingIgnoresTheWriteCursor :=
  fun _ _ len wfill _ => execReadBits_commutes (g := fun t => { t with wfill := wfill, len := len }) rfl rfl rfl
    (fun _ => rfl) rfl (fun _ => rfl) fun _ => rfl

end Sys2Proof.Machine

/-! What each command leaves alone whenever it answers (spec/60_exceptions.md R106, and the frames of spec/41_write.md,
spec/42_read.md and spec/44_bulk_and_cursor.md), and the statements that say so. -/

namespace Sys2Proof.Machine

/-! ### Frames shared by every command -/

/-- Every answer to a command: the refusal of a halted engine, the fault its checks find, or its completion. -/
theorem exec_next {i : Instr} {s t : State} (h : exec i s = .next t) :
    t = s.refuseHalted ∨ (∃ f, s.faultOf i = some f ∧ t = s.raise f) ∨ CompletesOk i s t := by
  cases hh : s.halted with
  | true => exact .inl (Host.Outcome.next.inj (h.symm.trans (exec_of_halted i hh)))
  | false => exact .inr ((exec_answer hh h).imp_right And.right)

/-- A command moves a flag of `EFLAGS` only if it is that of the fault its checks find. -/
theorem exec_getLsbD_eflags {i : Instr} {s t : State} (h : exec i s = .next t) {j : Nat}
    (hj : ∀ f, s.faultOf i = some f → j ≠ f.flagBit) : t.eflags.getLsbD j = s.eflags.getLsbD j := by
  rcases exec_next h with rfl | ⟨f, hf, rfl⟩ | hok
  · rfl
  · rw [State.raise_eflags, getLsbD_setFlag, decide_eq_false (hj f hf), Bool.or_false]
  · rw [hok.eflags]

/-- A command whose checks find no fault leaves the flags, on a halted engine too. -/
theorem exec_eflags_of_no_fault {i : Instr} {s t : State} (h : exec i s = .next t) (hf : s.faultOf i = none) :
    t.eflags = s.eflags :=
  BitVec.eq_of_getLsbD_eq fun _ _ => exec_getLsbD_eflags h fun _ hsome => absurd (hf.symm.trans hsome) nofun

/-- An OK command sets no flag. -/
theorem exec_eflags_of_ok {i : Instr} {s t : State} (h : exec i s = .next t) (hok : t.lastStatus = some .ok) :
    t.eflags = s.eflags := by
  rcases exec_next h with rfl | ⟨f, _, rfl⟩ | hdone
  · rfl
  · exact absurd (Option.some.inj hok) f.status_ne_ok
  · exact hdone.eflags

/-- A command that is not OK leaves the stream registers and the buffer. -/
theorem exec_stream_of_not_ok {i : Instr} {s t : State} (h : exec i s = .next t) (hne : t.lastStatus ≠ some .ok) :
    t.stream = s.stream := by
  rcases exec_next h with rfl | ⟨f, _, rfl⟩ | hdone
  · rfl
  · rfl
  · exact absurd hdone.status hne

/-! ### WRITE_BITS -/

theorem execWriteBits_of_zero (w : StorageWidth) {s : State} (hh : s.halted = false) :
    execWriteBits w 0 s = .next (s.respond .ok) := by
  rw [execWriteBits, hh, if_neg Bool.false_ne_true, if_neg (Nat.not_lt_zero _), if_pos rfl]

/-- Settles O23: with `n` = 0 the third check ends the command, before it looks at the buffer or at `CAP`. -/
theorem writeOfZeroBitsChangesNothing : Obligations.WriteOfZeroBitsChangesNothing :=
  fun w _ hh => execWriteBits_of_zero w hh

theorem execWriteBits_roff {w : StorageWidth} {n : Nat} {s t : State} (h : execWriteBits w n s = .next t) :
    t.roff = s.roff := by
  rcases execWriteBits_stream h with hs | ⟨_, _, b, _, hs⟩ <;>
    obtain ⟨_, _, _, hroff, _⟩ := State.stream_eq_iff.1 hs <;> exact hroff

theorem execWriteBits_read_of_outside {w : StorageWidth} {n : Nat} {s t : State} (h : execWriteBits w n s = .next t)
    {a : Nat} (ha : a < s.writeBase ∨ s.writeBase + s.writeCount n ≤ a) : t.mem.read a = s.mem.read a := by
  rcases execWriteBits_stream h with hs | ⟨_, _, b, _, hs⟩ <;>
    obtain ⟨hmem, _⟩ := State.stream_eq_iff.1 hs <;> rw [hmem]
  exact Memory.read_writeNat_of_outside _ _ ha

theorem execWriteBits_stream_of_zero {w : StorageWidth} {s t : State} (h : execWriteBits w 0 s = .next t) :
    t.stream = s.stream :=
  (execWriteBits_stream h).resolve_right fun hwrite => absurd hwrite.1 (Nat.not_succ_le_zero 0)

/-- Settles O28: the buffer and the cursors by what a write can do to the stream registers, the flags by the two faults its
checks can find, which set bits 0 and 2. -/
theorem writeBitsFrame : Obligations.WriteBitsFrame := by
  intro w n s t h
  refine ⟨fun a => execWriteBits_read_of_outside h, execWriteBits_roff h,
    fun hlen => firstWriteEstablishesTheReadCursor.2 w n s t (.inl hlen) h, exec_hostSide h, exec_eflags_of_ok h, ?stream,
    fun j h0 h2 => exec_getLsbD_eflags h fun f hf => ?flags⟩
  case stream =>
    rintro (hne | rfl)
    · exact exec_stream_of_not_ok h hne
    · exact execWriteBits_stream_of_zero h
  case flags =>
    rcases (s.faultOf_writeBits_eq_some_iff w n f).1 hf with ⟨_, rfl⟩ | ⟨_, _, _, rfl⟩
    · exact h0
    · exact h2

/-! ### READ_BITS -/

theorem execReadBits_wfill {w : StorageWidth} {n : Nat} {s t : State} (h : execReadBits w n s = .next t) :
    t.wfill = s.wfill := by
  rcases execReadBits_stream h with hs | ⟨_, _, hs⟩ <;> obtain ⟨_, _, hwfill, _⟩ := State.stream_eq_iff.1 hs <;>
    exact hwfill

/-- Settles O36: no read touches the buffer or the write cursor; the two faults its checks can find set bits 0 and 1. -/
theorem readBitsFrame : Obligations.ReadBitsFrame := by
  intro w n s t h
  obtain ⟨hmem, hlen⟩ := exec_buffer_frame (.inl ⟨w, n, rfl⟩) h
  refine ⟨fun a => hmem ▸ rfl, hlen, execReadBits_wfill h, exec_hostSide h, exec_eflags_of_ok h, exec_stream_of_not_ok h,
    fun j hj => exec_getLsbD_eflags h fun f hf => ?_⟩
  rcases (s.faultOf_readBits_eq_some_iff w n f).1 hf with ⟨_, rfl⟩ | ⟨_, _, _, rfl⟩
  · exact Nat.ne_of_gt (Nat.lt_of_lt_of_le Nat.two_pos hj)
  · exact Nat.ne_of_gt hj

/-! ### LOAD, STORE, REWIND -/

theorem execRewind_wfill {s t : State} (h : execRewind s = .next t) : t.wfill = s.wfill := by
  rcases execRewind_stream h with hs | hs <;> obtain ⟨_, _, hwfill, _⟩ := State.stream_eq_iff.1 hs <;> exact hwfill

/-- Settles O41: LOAD by its one fault, which sets bit 2, and by the bytes it leaves; STORE and REWIND by what they can do
to the stream registers, their checks finding no fault. -/
theorem bulkCommandsFrame : Obligations.BulkCommandsFrame := by
  refine ⟨fun s t h => ⟨exec_hostSide h, exec_stream_of_not_ok h, fun j hj => exec_getLsbD_eflags h fun f hf => ?flag,
    fun a ha hok => ?past⟩, fun s t h => ⟨execStore_stream h, exec_eflags_of_no_fault h rfl, exec_hostSide h⟩,
    fun s t h => ?rewind⟩
  case flag =>
    obtain ⟨_, rfl⟩ := (s.faultOf_load_eq_some_iff f).1 hf
    exact hj
  case past => rw [execLoad_read_of_ok h hok, List.getElem?_eq_none ha]
  case rewind =>
    obtain ⟨hmem, hlen⟩ := exec_buffer_frame (.inr (.inr rfl)) h
    exact ⟨fun a => hmem ▸ rfl, hlen, execRewind_wfill h, exec_eflags_of_no_fault h rfl, exec_hostSide h⟩

end Sys2Proof.Machine

/-! The two datapaths on the bit string: a write appends to the payload (spec/41_write.md R72), a read takes the next field
(spec/42_read.md R80), and the statements of those chapters they settle. -/

namespace Sys2Proof.Machine

/-! ### Writing as appending -/

/-- The bits of the byte at an index, on the bit string (spec/20_memory.md R43). -/
theorem Memory.streamBit_of_read {m : Memory} {a i : Nat} {b : Byte} (hb : m.read a = some b) (hi : i < 8) :
    m.streamBit (8 * a + i) = (b.toNat.testBit i).toNat := by
  have hindex : (8 * a + i) / 8 = a := by omega
  have hbit : (8 * a + i) % 8 = i := by omega
  simp only [Memory.streamBit, hindex, hbit, hb, BitVec.testBit_toNat]

/-- A non-empty buffer ends in a byte with 1 to 8 bits of payload (spec/10_state.md R16 item b). -/
theorem State.wfill_bounds {s : State} (h : s.Inv) (hlen : 1 ≤ s.len) : 1 ≤ s.wfill.toNat ∧ s.wfill.toNat ≤ 8 := by
  obtain ⟨_, _, ⟨hw, _, h8, _⟩, _⟩ := h
  exact ⟨Nat.one_le_iff_ne_zero.2 fun h0 => Nat.one_le_iff_ne_zero.1 hlen (hw.2 h0), h8⟩

/-- Item e of R16 on the bit string: the bits of the last byte above the payload are 0. -/
theorem State.streamBit_of_padding {s : State} (h : s.Inv) {p : Nat} (hp : s.payloadBits ≤ p) (hlt : p < 8 * s.len) :
    s.mem.streamBit p = 0 := by
  have hlen : 1 ≤ s.len := by omega
  obtain ⟨h1, _⟩ := State.wfill_bounds h hlen
  rw [State.payloadBits, if_neg (by omega)] at hp
  obtain ⟨i, rfl⟩ := Nat.exists_eq_add_of_le (show 8 * (s.len - 1) ≤ p by omega)
  have hi : s.wfill.toNat ≤ i ∧ i < 8 := by omega
  obtain ⟨b, hb, hbit⟩ := State.trailing_byte_of_inv h ⟨h1, by omega⟩
  have hhigh : b.toNat < 2 ^ i := hbit.trans_le (Nat.pow_le_pow_right Nat.two_pos hi.1)
  rw [Memory.streamBit_of_read hb hi.2, Nat.testBit_lt_two_pow hhigh]
  rfl

/-- The reclaimed byte holds the bits of the payload past the write base. -/
theorem State.streamBit_of_reclaimed {s : State} {b : Byte} (hb : s.reclaimedByte = some b) {i : Nat}
    (hi : i < s.writeFill) : s.mem.streamBit (8 * s.writeBase + i) = (b.toNat.testBit i).toNat := by
  have hi8 : i < 8 := hi.trans_le (s.writeFill_le.trans (by decide))
  unfold State.reclaimedByte at hb
  unfold State.writeFill at hi
  split at hb
  · next hp =>
    rw [State.writeBase, if_pos hp]
    exact Memory.streamBit_of_read hb hi8
  · next hp =>
    rw [if_neg hp] at hi
    exact absurd hi (Nat.not_lt_zero i)

theorem State.payloadBits_afterWrite {s : State} (h : s.Inv) {n : Nat} (hn : 1 ≤ n) (b : Byte) :
    (s.afterWrite n b).payloadBits = s.payloadBits + n := by
  have hk := s.writeCount_pos n hn
  have hbits : 8 * (s.writeCount n - 1) + fillOf (s.writeFill + n) = s.writeFill + n := fillOf_spec _ (by omega)
  rw [State.payloadBits_eq h, State.payloadBits, State.afterWrite_len, State.afterWrite_wfill, toNat_fillOf,
    if_neg (by omega)]
  omega

/-- A write keeps the bits of the payload. -/
theorem State.streamBit_afterWrite_of_lt {s : State} (h : s.Inv) {n : Nat} {b : Byte} (hb : s.reclaimedByte = some b)
    {p : Nat} (hp : p < s.payloadBits) : (s.afterWrite n b).mem.streamBit p = s.mem.streamBit p := by
  rw [State.payloadBits_eq h] at hp
  rw [State.afterWrite_mem, Memory.streamBit_writeNat]
  split
  · next hin =>
    obtain ⟨i, rfl⟩ := Nat.exists_eq_add_of_le hin.1
    have hi : i < s.writeFill := by omega
    have hin : i < s.writeFill + n := by omega
    rw [State.streamBit_of_reclaimed hb hi, Nat.add_sub_cancel_left, testBit_combine]
    simp [hi.not_ge, hin]
  · rfl

/-- The bits a write appends are the operand's. -/
theorem State.streamBit_afterWrite_payload {s : State} (h : s.Inv) {n : Nat} {b : Byte} (hb : b.toNat < 2 ^ s.writeFill)
    {i : Nat} (hi : i < n) :
    (s.afterWrite n b).mem.streamBit (s.payloadBits + i) = (s.wdata.toNat.testBit i).toNat := by
  have hroom : s.writeFill + n ≤ 8 * s.writeCount n := le_eight_mul_bytesNeeded _
  have hlow : b.toNat.testBit (s.writeFill + i) = false :=
    Nat.testBit_lt_two_pow (hb.trans_le (Nat.pow_le_pow_right Nat.two_pos (Nat.le_add_right ..)))
  rw [State.payloadBits_eq h, State.afterWrite_mem, Memory.streamBit_writeNat, if_pos (by omega), Nat.add_assoc,
    Nat.add_sub_cancel_left, testBit_combine]
  simp [hlow, hi, State.writeOperand]

theorem State.streamBits_afterWrite_payload {s : State} (h : s.Inv) {n : Nat} {b : Byte}
    (hb : b.toNat < 2 ^ s.writeFill) :
    (s.afterWrite n b).mem.streamBits s.payloadBits n = s.wdata.toNat % 2 ^ n := by
  refine Nat.eq_of_testBit_eq fun i => ?_
  rw [Memory.testBit_streamBits, Nat.testBit_mod_two_pow]
  by_cases hi : i < n
  · rw [State.streamBit_afterWrite_payload h hb hi]
    cases s.wdata.toNat.testBit i <;> simp
  · simp [hi]

/-- Settles O26: a write of no bits leaves the buffer; one of `n` bits keeps the payload's bits and puts the operand's `n`
low bits after them; above the payload the last byte is zero in every state with the invariants, which a write keeps. -/
theorem writeAppendsToTheBitString : Obligations.WriteAppendsToTheBitString := by
  intro w n s t hinv h hok
  have hpadding (p : Nat) := State.streamBit_of_padding (exec_inv hinv h) (p := p)
  rcases execWriteBits_next_of_ok h hok with ⟨rfl, rfl⟩ | ⟨hn, _, b, hb, rfl⟩
  · exact ⟨rfl, rfl, (Nat.mod_one _).symm, hpadding⟩
  · obtain ⟨b', hb', hlt⟩ := State.reclaimedByte_of_inv hinv
    obtain rfl : b' = b := Option.some.inj (hb'.symm.trans hb)
    have hkept : (s.afterWrite n b').mem.streamBits 0 s.payloadBits = s.mem.streamBits 0 s.payloadBits :=
      Memory.streamBits_congr fun i hi => State.streamBit_afterWrite_of_lt hinv hb (by rwa [Nat.zero_add])
    exact ⟨State.payloadBits_afterWrite hinv hn b', hkept, State.streamBits_afterWrite_payload hinv hlt, hpadding⟩

/-! ### Reading as taking the next field -/

/-- A read stays inside its region exactly when its bits stay inside the buffer's bytes. -/
theorem State.readCount_le_iff {s : State} (h : s.Inv) (n : Nat) :
    s.readCount n ≤ s.rcnt ↔ s.readPosition + n ≤ 8 * s.len := by
  obtain ⟨_, hregion, _⟩ := h
  rw [State.readCount, bytesNeeded_le_iff, State.readPosition]
  omega

theorem State.readPosition_afterRead (s : State) (n : Nat) :
    (s.afterRead n).readPosition = s.readPosition + n := by
  have hdrop := s.readDrop_mul_add_tail n
  have htail : s.readTail n < 8 := Nat.mod_lt _ (by decide)
  rw [State.readPosition, State.readPosition, State.headReadBits, State.afterRead_roff, State.afterRead_rfill,
    State.toNat_rfillAfterRead]
  omega

/-- A read that stays inside the buffer's bytes hands out the field of the bit string at the read position. -/
theorem execReadBits_of_within {w : StorageWidth} {n : Nat} {s : State} (hinv : s.Inv) (hh : s.halted = false)
    (hn : n ≤ w.bits) (hr : s.rfill ≠ 0) (hle : s.readPosition + n ≤ 8 * s.len) :
    execReadBits w n s = .next ((s.afterRead n).respondValue (s.mem.streamBits s.readPosition n)) := by
  have hk := (State.readCount_le_iff hinv n).2 hle
  obtain ⟨q, hq⟩ := State.touchedBytes_of_inv hinv hk
  have hroom : n + s.headReadBits ≤ 8 * s.readCount n := le_eight_mul_bytesNeeded _
  have hfield : extractField q s.headReadBits n = s.mem.streamBits s.readPosition n :=
    Memory.readNat_field hq (by omega)
  rw [execReadBits_of_fits hh hn hr hk hq, hfield]

/-- Settles O31: inside the buffer the read answers with the field and moves the read position past it, outside it takes the
bounds fault. -/
theorem readReturnsTheNextField : Obligations.ReadReturnsTheNextField := by
  intro w n s hinv hh hn hr
  refine ⟨fun hle => ?inside, fun hlt => ?outside⟩
  case inside =>
    exact ⟨_, execReadBits_of_within hinv hh hn hr hle, rfl, rfl, s.readPosition_afterRead n, rfl, rfl⟩
  case outside =>
    have hk : s.rcnt < s.readCount n := by
      by_contra hle
      exact absurd ((State.readCount_le_iff hinv n).1 (Nat.le_of_not_lt hle)) (Nat.not_le_of_lt hlt)
    exact ⟨_, execReadBits_of_past_region hh hn hr hk, rfl, rfl⟩

/-- An established read cursor has 1 to 8 bits of its leading byte left. -/
theorem State.rfill_bounds {s : State} (h : s.Inv) (hr : s.rfill ≠ 0) : 1 ≤ s.rfill.toNat ∧ s.rfill.toNat ≤ 8 := by
  obtain ⟨_, _, ⟨_, _, _, h8⟩, _⟩ := h
  exact ⟨Nat.one_le_iff_ne_zero.2 fun h0 => hr ((Nibble.eq_zero_iff _).2 h0), h8⟩

/-- The read position lies inside the buffer: a drained read region is byte-aligned (spec/10_state.md R16 item f). -/
theorem State.readPosition_le {s : State} (h : s.Inv) (hr : s.rfill ≠ 0) : s.readPosition ≤ 8 * s.len := by
  obtain ⟨h1, h8⟩ := State.rfill_bounds h hr
  obtain ⟨_, hregion, ⟨_, hrf, _⟩, _, _, hdrained⟩ := h
  have hlen : 1 ≤ s.len := by omega
  rw [State.readPosition, State.headReadBits]
  by_cases h0 : s.rcnt = 0
  · have := hdrained h0 hlen
    omega
  · omega

/-- A read of no bits leaves every register. -/
theorem State.afterRead_zero {s : State} (h : s.Inv) (hr : s.rfill ≠ 0) : s.afterRead 0 = s := by
  obtain ⟨h1, h8⟩ := State.rfill_bounds h hr
  have hhead : s.headReadBits = 8 - s.rfill.toNat := rfl
  have htotal := s.readDrop_mul_add_tail 0
  have htail : s.readTail 0 < 8 := Nat.mod_lt _ (by decide)
  have hdrop : s.readDrop 0 = 0 := by omega
  have hrfill : s.rfillAfterRead 0 = s.rfill := by
    apply BitVec.eq_of_toNat_eq
    rw [State.toNat_rfillAfterRead]
    omega
  rw [State.afterRead, hdrop, hrfill]
  rfl

/-- Settles O33: on an established cursor the read stays inside the buffer and takes the empty field; on one never
established the third check finds the contract violation. -/
theorem readOfZeroBits : Obligations.ReadOfZeroBits := by
  refine ⟨fun w s hinv hh hr => ?established, fun w s hh hr => ?never⟩
  case established =>
    have hread := execReadBits_of_within hinv hh (Nat.zero_le w.bits) hr (State.readPosition_le hinv hr)
    rw [State.afterRead_zero hinv hr] at hread
    exact hread
  case never =>
    exact ⟨_, execReadBits_of_contract hh (.inr hr), rfl, rfl, by simp [State.raise_halted]⟩

theorem StorageWidth.eight_mul_bits_div (w : StorageWidth) : 8 * (w.bits / 8) = w.bits := by
  cases w <;> rfl

/-- At an aligned cursor a read of whole bytes drops just those bytes and stays aligned. -/
theorem State.readDrop_of_aligned {s : State} (hr : s.rfill = 8) (k : Nat) :
    s.readDrop (8 * k) = k ∧ s.readTail (8 * k) = 0 := by
  have htotal := s.readDrop_mul_add_tail (8 * k)
  have htail : s.readTail (8 * k) < 8 := Nat.mod_lt _ (by decide)
  have hhead : s.headReadBits = 0 := by rw [State.headReadBits, hr]; rfl
  omega

/-- Settles O34: READ_AS takes the field of `w` bits at bit 0 of a byte, which is `MemRead` of the `w / 8` bytes there. -/
theorem alignedReadAsTakesWholeBytes : Obligations.AlignedReadAsTakesWholeBytes := by
  intro w s hinv hh hr hle
  have hposition : s.readPosition = 8 * s.roff := by
    rw [State.readPosition, State.headReadBits, hr]
    rfl
  have hwithin : s.readPosition + w.bits ≤ 8 * s.len := by
    obtain ⟨_, hregion, _⟩ := hinv
    have hbytes := StorageWidth.eight_mul_bits_div w
    omega
  obtain ⟨q, hq⟩ := State.touchedBytes_of_inv hinv hle
  have hread := execReadBits_of_within hinv hh le_rfl (by rw [hr]; decide) hwithin
  have hvalue := Memory.readNat_eq_streamBits hq
  obtain ⟨hdrop, htail⟩ := State.readDrop_of_aligned hr (w.bits / 8)
  rw [StorageWidth.eight_mul_bits_div] at hvalue hdrop htail
  rw [hposition, ← hvalue] at hread
  refine ⟨q, _, hq, hread, rfl, congrArg (s.roff + ·) hdrop, congrArg (s.rcnt - ·) hdrop, ?_⟩
  apply BitVec.eq_of_toNat_eq
  rw [State.respondValue_rfill, State.afterRead_rfill, State.toNat_rfillAfterRead, htail]
  rfl

end Sys2Proof.Machine

/-! Bytes that leave one engine or a typed element and enter a buffer by LOAD (spec/44_bulk_and_cursor.md, spec/20_memory.md
R31), and the statements they settle. -/

namespace Sys2Proof.Machine

/-! ### What one engine stores another loads -/

/-- Loading what STORE handed out gives the buffer back as data. -/
theorem Memory.ofBytes_of_readBytes {m : Memory} {n : Nat} {bs : List Byte} (hm : m.map Prod.fst = List.range n)
    (hbs : m.readBytes 0 n = some bs) : Memory.ofBytes 0 bs = m := by
  obtain ⟨hlen, hget⟩ := Memory.readBytes_spec hbs
  refine Memory.ext_of_wf (Memory.wf_ofBytes 0 bs) (Memory.wf_of_indices hm) fun x => ?_
  rw [Memory.read_ofBytes, if_pos (Nat.zero_le x), Nat.sub_zero]
  by_cases hx : x < n
  · rw [hget x hx, Nat.zero_add]
  · have habsent : m.read x = none := by
      rw [← Option.not_isSome_iff_eq_none, Memory.read_isSome_of_indices hm]
      exact hx
    rw [habsent, List.getElem?_eq_none (hlen ▸ Nat.le_of_not_lt hx)]

theorem execStore_sdst {s t : State} {bs : List Byte} (h : execStore s = .next t) (hbs : t.lastSdst = some bs) :
    s.mem.readBytes 0 s.len = some bs := by
  rcases execStore_next h with ⟨_, rfl⟩ | ⟨_, cs, hcs, rfl⟩
  · exact absurd hbs nofun
  · rwa [← Option.some.inj hbs]

/-- Settles O43: the loaded buffer is the stored one as data, so it has its bit string, and zeros above its payload. -/
theorem storeThenLoadMovesTheBuffer : Obligations.StoreThenLoadMovesTheBuffer := by
  rintro a b bs a' hinv _ hstore hsdst hh rfl hfits
  have hbytes := execStore_sdst hstore hsdst
  obtain ⟨hlen, _⟩ := Memory.readBytes_spec hbytes
  have hmem : (b.afterLoad.respond .ok).mem = a.mem := Memory.ofBytes_of_readBytes hinv.1 hbytes
  refine ⟨_, execLoad_of_fits hh hfits, hmem, hlen, rfl, fun hpos => ?cursors, fun p n => by rw [hmem],
    fun p hp hlt => ?padding⟩
  case cursors =>
    have hpos : 1 ≤ b.lsrcLen := hpos.trans_eq hlen.symm
    exact ⟨State.seekStart_readPosition hpos, BitVec.eq_of_toNat_eq (alignedFill_of_pos hpos)⟩
  case padding =>
    rw [hmem]
    exact State.streamBit_of_padding hinv hp (hlen ▸ hlt)

/-! ### A typed element -/

/-- The bytes of a number, least significant first, as the buffer they are loaded into: the number again, cut to them. -/
theorem Memory.readNat_ofBytes_of_number {v k q : Nat} {bs : List Byte}
    (hbs : bs = (List.range k).map fun i => BitVec.ofNat 8 (v >>> (8 * i)))
    (hq : (Memory.ofBytes 0 bs).readNat 0 k = some q) :
    q = v % 2 ^ (8 * k) := by
  refine Nat.eq_of_testBit_eq fun j => ?_
  rw [Memory.testBit_readNat hq, Nat.testBit_mod_two_pow, Nat.mul_zero, Nat.zero_add]
  by_cases hj : j < 8 * k
  · have hbyte : (Memory.ofBytes 0 bs).read (j / 8) = some (BitVec.ofNat 8 (v >>> (8 * (j / 8)))) := by
      have hindex : j / 8 < k := by omega
      rw [Memory.read_ofBytes, hbs]
      simp [hindex]
    have hbit := Memory.streamBit_of_read hbyte (Nat.mod_lt j (by decide))
    rw [Nat.div_add_mod, BitVec.testBit_toNat, BitVec.getLsbD_ofNat, Nat.testBit_shiftRight, Nat.div_add_mod] at hbit
    have hlow : j % 8 < 8 := Nat.mod_lt j (by decide)
    rw [hbit]
    cases v.testBit j <;> simp [hlow]
  · simp [hj]

/-- Settles O44: after an OK LOAD of the element's bytes the cursor is aligned with exactly those bytes left, so READ_AS
answers with `MemRead` of them. -/
theorem loadedElementReadsBack : Obligations.LoadedElementReadsBack := by
  intro w v s t hh hsrc hfits hload
  have hlen : s.lsrcLen = w.bits / 8 := by rw [State.lsrcLen, hsrc, List.length_map, List.length_range]
  have hpos : 1 ≤ w.bits / 8 := Nat.div_pos (StorageWidth.le_bits w) (by decide)
  rw [← hlen] at hfits hpos
  obtain rfl : s.afterLoad.respond .ok = t := Host.Outcome.next.inj ((execLoad_of_fits hh hfits).symm.trans hload)
  have hrfill : s.afterLoad.rfill = 8 := BitVec.eq_of_toNat_eq (alignedFill_of_pos hpos)
  obtain ⟨q, u, hq, hread, hresponse, _, hrcnt, _⟩ := alignedReadAsTakesWholeBytes w (s.afterLoad.respond .ok)
    (State.afterLoad_inv hfits) hh hrfill hlen.ge
  have hvalue := Memory.readNat_ofBytes_of_number hsrc hq
  rw [StorageWidth.eight_mul_bits_div] at hvalue
  rw [hvalue] at hresponse
  exact ⟨u, hread, hresponse, hrcnt.trans (Nat.sub_eq_zero_of_le hlen.le)⟩

end Sys2Proof.Machine

/-! Whole streams of fields (spec/41_write.md R72, spec/42_read.md R81): what a list of writes appends, what a list of reads
hands out, and the statements they settle. -/

namespace Sys2Proof.Machine

/-! ### Runs -/

theorem runTrace_cons {k : Nat} {s t u : State} {rs : List (Option Response)} (hs : step s = .next t)
    (hrun : runTrace k t = some (u, rs)) : runTrace (k + 1) s = some (u, t.response :: rs) := by
  simp only [runTrace, hs, hrun]

theorem runTrace_trans {j k : Nat} {s t u : State} {rs qs : List (Option Response)} (h : runTrace j s = some (t, rs))
    (h' : runTrace k t = some (u, qs)) : runTrace (j + k) s = some (u, rs ++ qs) := by
  simp only [runTrace_append, h, h', Option.bind_some, Option.map_some]

theorem runTrace_length {k : Nat} {s t : State} {rs : List (Option Response)} (h : runTrace k s = some (t, rs)) :
    rs.length = k := by
  induction k generalizing s rs with
  | zero => cases h; rfl
  | succ k ih =>
    rw [runTrace] at h
    split at h
    · split at h
      · next hrun => cases h; rw [List.length_cons, ih hrun]
      · cases h
    · cases h

/-! ### Lengths and fields -/

/-- The buffer has just the bytes its payload takes (spec/41_write.md R72). -/
theorem State.len_eq_bytesNeeded {s : State} (h : s.Inv) : s.len = bytesNeeded s.payloadBits := by
  rw [State.payloadBits]
  split
  · next h0 => rw [h0]; rfl
  · next h0 =>
    obtain ⟨h1, h8⟩ := State.wfill_bounds h (Nat.one_le_iff_ne_zero.2 h0)
    rw [bytesNeeded_eight_mul_add, bytesNeeded_eq_one h1 h8]
    omega

theorem State.payloadBits_le {s : State} (h : s.Inv) : s.payloadBits ≤ 8 * s.len := by
  rw [State.len_eq_bytesNeeded h]
  exact le_eight_mul_bytesNeeded _

/-- The whole buffer as a number is its payload: the padding is 0. -/
theorem State.streamBits_eight_mul_len {s : State} (h : s.Inv) :
    s.mem.streamBits 0 (8 * s.len) = s.mem.streamBits 0 s.payloadBits := by
  obtain ⟨k, hk⟩ := Nat.exists_eq_add_of_le (State.payloadBits_le h)
  have hpadding : s.mem.streamBits s.payloadBits k = 0 := by
    refine Nat.eq_of_testBit_eq fun i => ?_
    rw [Memory.testBit_streamBits, Nat.zero_testBit]
    by_cases hi : i < k
    · rw [State.streamBit_of_padding h (Nat.le_add_right ..) (by omega)]
      simp
    · simp [hi]
  rw [hk, Memory.streamBits_add, Nat.zero_add, hpadding, Nat.mul_zero, Nat.add_zero]

/-- A field that is a low part below a high part splits into the two. -/
theorem Memory.streamBits_split {m : Memory} {p a b x y : Nat} (hx : x < 2 ^ a)
    (h : m.streamBits p (a + b) = x + 2 ^ a * y) : m.streamBits p a = x ∧ m.streamBits (p + a) b = y := by
  rw [Memory.streamBits_add] at h
  have hlow := m.streamBits_lt p a
  constructor
  · calc m.streamBits p a
        = (m.streamBits p a + 2 ^ a * m.streamBits (p + a) b) % 2 ^ a := by
          rw [Nat.add_mul_mod_self_left, Nat.mod_eq_of_lt hlow]
      _ = x := by rw [h, Nat.add_mul_mod_self_left, Nat.mod_eq_of_lt hx]
  · calc m.streamBits (p + a) b
        = (m.streamBits p a + 2 ^ a * m.streamBits (p + a) b) / 2 ^ a := by
          rw [Nat.add_mul_div_left _ _ (Nat.two_pow_pos a), Nat.div_eq_of_lt hlow, Nat.zero_add]
      _ = y := by rw [h, Nat.add_mul_div_left _ _ (Nat.two_pow_pos a), Nat.div_eq_of_lt hx, Nat.zero_add]

/-- Fields of no bits before others add nothing. -/
theorem fields_append_of_empty {zs : List BitField} (hzs : ∀ f ∈ zs, f.bits = 0) (fs : List BitField) :
    fieldsWidth (zs ++ fs) = fieldsWidth fs ∧ fieldsValue (zs ++ fs) = fieldsValue fs := by
  induction zs with
  | nil => exact ⟨rfl, rfl⟩
  | cons z zs ih =>
    obtain ⟨hwidth, hvalue⟩ := ih fun f hf => hzs f (List.mem_cons_of_mem _ hf)
    have hz := hzs z List.mem_cons_self
    simp only [List.cons_append, fieldsWidth, fieldsValue, hz, hwidth, hvalue, pow_zero, Nat.mod_one, Nat.zero_add,
      Nat.one_mul, and_self]

/-! ### Writes -/

/-- `t` is `s` with `n` bits of value `v` appended to the payload. A read cursor over a non-empty buffer stays. -/
structure State.Appends (s t : State) (n v : Nat) : Prop where
  inv : t.Inv
  cap : t.cap = s.cap
  eflags : t.eflags = s.eflags
  grows : s.len ≤ t.len
  payload : t.payloadBits = s.payloadBits + n
  kept : ∀ p < s.payloadBits, t.mem.streamBit p = s.mem.streamBit p
  added : t.mem.streamBits s.payloadBits n = v
  cursor : 1 ≤ s.len → t.roff = s.roff ∧ t.rfill = s.rfill

/-- Nothing appended: the stream registers are as they were. -/
theorem State.Appends.of_stream {s t : State} (h : s.Inv) (hs : t.stream = s.stream) (hc : t.cap = s.cap)
    (he : t.eflags = s.eflags) : s.Appends t 0 0 := by
  obtain ⟨hmem, hlen, hwfill, hroff, _, hrfill⟩ := State.stream_eq_iff.1 hs
  exact ⟨h.congr hs hc, hc, he, hlen.ge, by rw [State.payloadBits, hlen, hwfill]; rfl, fun _ _ => by rw [hmem], rfl,
    fun _ => ⟨hroff, hrfill⟩⟩

theorem State.Appends.trans {s t u : State} {n m v x : Nat} (h : s.Appends t n v) (h' : t.Appends u m x) :
    s.Appends u (n + m) (v + 2 ^ n * x) where
  inv := h'.inv
  cap := h'.cap.trans h.cap
  eflags := h'.eflags.trans h.eflags
  grows := h.grows.trans h'.grows
  payload := by rw [h'.payload, h.payload, Nat.add_assoc]
  kept p hp := (h'.kept p (by rw [h.payload]; omega)).trans (h.kept p hp)
  added := by
    have hlow : u.mem.streamBits s.payloadBits n = t.mem.streamBits s.payloadBits n :=
      Memory.streamBits_congr fun i hi => h'.kept _ (by rw [h.payload]; omega)
    rw [Memory.streamBits_add, hlow, h.added, ← h.payload, h'.added]
  cursor hlen := by
    obtain ⟨hroff, hrfill⟩ := h.cursor hlen
    obtain ⟨hroff', hrfill'⟩ := h'.cursor (hlen.trans h.grows)
    exact ⟨hroff'.trans hroff, hrfill'.trans hrfill⟩

theorem State.Appends.halted {s t : State} {n v : Nat} (h : s.Appends t n v) : t.halted = s.halted :=
  State.halted_congr h.eflags

/-- Presenting a command appends nothing. -/
theorem State.Appends.of_present {s t : State} {n v : Nat} {rest : List HostEvent} {x : Value} {l : List Byte}
    (h : (s.present rest x l).Appends t n v) : s.Appends t n v :=
  ⟨h.inv, h.cap, h.eflags, h.grows, h.payload, h.kept, h.added, h.cursor⟩

/-- An OK write appends the operand's low bits. -/
theorem execWriteBits_appends {w : StorageWidth} {n : Nat} {s t : State} (hinv : s.Inv)
    (h : execWriteBits w n s = .next t) (hok : t.lastStatus = some .ok) : s.Appends t n (s.wdata.toNat % 2 ^ n) := by
  rcases execWriteBits_next_of_ok h hok with ⟨rfl, rfl⟩ | ⟨hn, hc, b, hb, rfl⟩
  · rw [pow_zero, Nat.mod_one]
    exact .of_stream hinv rfl rfl rfl
  · obtain ⟨b', hb', hlt⟩ := State.reclaimedByte_of_inv hinv
    obtain rfl : b' = b := Option.some.inj (hb'.symm.trans hb)
    exact
      { inv := exec_inv (i := .writeBits w n) hinv h
        cap := rfl
        eflags := rfl
        grows := s.len_le_afterWrite n hn
        payload := State.payloadBits_afterWrite hinv hn b'
        kept := fun _ => State.streamBit_afterWrite_of_lt hinv hb
        added := State.streamBits_afterWrite_payload hinv hlt
        cursor := fun hlen => ⟨rfl, State.rfillAfterWrite_of_nonempty (Nat.one_le_iff_ne_zero.1 hlen) n⟩ }

/-- A write whose bits fit `CAP` completes. -/
theorem execWriteBits_completes {w : StorageWidth} {n : Nat} {s : State} (hinv : s.Inv) (hh : s.halted = false)
    (hn : n ≤ w.bits) (hc : withinCapacity s.cap (bytesNeeded (s.payloadBits + n)) = true) :
    ∃ t, execWriteBits w n s = .next t ∧ t.lastStatus = some .ok := by
  rcases Nat.eq_zero_or_pos n with rfl | h1
  · exact ⟨_, execWriteBits_of_zero w hh, rfl⟩
  · rw [State.payloadBits_eq hinv, Nat.add_assoc, bytesNeeded_eight_mul_add] at hc
    obtain ⟨b, hb, _⟩ := State.reclaimedByte_of_inv hinv
    exact ⟨_, execWriteBits_of_fits hh hn h1 hc hb, rfl⟩

theorem Instr.wellFormed_of_le_bits {w : StorageWidth} {n : Nat} (h : n ≤ w.bits) :
    (Instr.writeBits w n).WellFormed ∧ (Instr.readBits w n).WellFormed := by
  have hn : n ≤ 127 := h.trans ((StorageWidth.bits_le w).trans (by decide))
  exact ⟨hn, hn⟩

theorem step_write {s : State} {f : BitField} {rest : List HostEvent} (hinv : s.Inv) (hh : s.halted = false)
    (hin : s.input = f.write :: rest) (hf : f.bits ≤ f.width.bits)
    (hc : withinCapacity s.cap (bytesNeeded (s.payloadBits + f.bits)) = true) :
    ∃ t, step s = .next t ∧ exec (.writeBits f.width f.bits) (s.present rest f.value []) = .next t ∧
      t.lastStatus = some .ok ∧ s.Appends t f.bits (f.value.toNat % 2 ^ f.bits) ∧ t.input = rest := by
  have hinv : (s.present rest f.value []).Inv := hinv.congr rfl rfl
  obtain ⟨t, ht, hok⟩ := execWriteBits_completes hinv hh hf hc
  have hstep := step_of_decode hin (decode_encode (Instr.wellFormed_of_le_bits hf).1)
  exact ⟨t, hstep.trans ht, ht, hok, (execWriteBits_appends hinv ht hok).of_present,
    congrArg HostSide.input (exec_hostSide (i := .writeBits f.width f.bits) ht)⟩

/-- Writing fields that fit appends their concatenation, every command OK. -/
theorem runTrace_writes {fs : List BitField} {s : State} {rest : List HostEvent} (hinv : s.Inv) (hh : s.halted = false)
    (hin : s.input = fs.map BitField.write ++ rest) (hfs : ∀ f ∈ fs, f.bits ≤ f.width.bits)
    (hc : withinCapacity s.cap (bytesNeeded (s.payloadBits + fieldsWidth fs)) = true) :
    ∃ t rs, runTrace fs.length s = some (t, rs) ∧ s.Appends t (fieldsWidth fs) (fieldsValue fs) ∧
      (∀ r ∈ rs, r.map Response.status = some .ok) ∧ t.input = rest := by
  induction fs generalizing s with
  | nil => exact ⟨s, [], rfl, .of_stream hinv rfl rfl rfl, nofun, hin⟩
  | cons f fs ih =>
    rw [fieldsWidth, ← Nat.add_assoc] at hc
    have hfits := withinCapacity_mono (bytesNeeded_mono (Nat.le_add_right ..)) hc
    obtain ⟨t, ht, _, hok, happends, hrest⟩ := step_write hinv hh hin (hfs f List.mem_cons_self) hfits
    rw [← happends.payload, ← happends.cap] at hc
    obtain ⟨u, rs, hrun, happends', hall, hlast⟩ := ih happends.inv (happends.halted.trans hh) hrest
      (fun g hg => hfs g (List.mem_cons_of_mem _ hg)) hc
    exact ⟨u, _, runTrace_cons ht hrun, happends.trans happends', List.forall_mem_cons.2 ⟨hok, hall⟩, hlast⟩

/-- The state every stream starts from: after reset, with the host's events to come. -/
theorem State.withInput_resetWith_inv (cap : Capacity) (es : List HostEvent) :
    ((State.resetWith cap).withInput es).Inv := (State.resetWith_inv cap).congr rfl rfl

/-- Fields written from reset: the whole payload is their concatenation. -/
theorem runTrace_writes_resetWith {cap : Capacity} {fs : List BitField} (rest : List HostEvent)
    (hfs : ∀ f ∈ fs, f.bits ≤ f.width.bits) (hc : withinCapacity cap (bytesNeeded (fieldsWidth fs)) = true) :
    ∃ t rs, runTrace fs.length ((State.resetWith cap).withInput (fs.map BitField.write ++ rest)) = some (t, rs) ∧
      ((State.resetWith cap).withInput (fs.map BitField.write ++ rest)).Appends t (fieldsWidth fs) (fieldsValue fs) ∧
      (∀ r ∈ rs, r.map Response.status = some .ok) ∧ t.input = rest :=
  runTrace_writes (State.withInput_resetWith_inv cap _) (State.resetWith_halted cap) rfl hfs
    ((Nat.zero_add (fieldsWidth fs)).symm ▸ hc)

/-- What was appended to the empty buffer of reset is all there is. -/
theorem State.Appends.of_resetWith {cap : Capacity} {es : List HostEvent} {t : State} {n v : Nat}
    (h : ((State.resetWith cap).withInput es).Appends t n v) :
    t.eflags = 0 ∧ t.payloadBits = n ∧ t.len = bytesNeeded n ∧ t.mem.streamBits 0 n = v := by
  have hpayload : t.payloadBits = n := h.payload.trans (Nat.zero_add n)
  exact ⟨h.eflags, hpayload, hpayload ▸ State.len_eq_bytesNeeded h.inv, h.added⟩

/-- Settles O58: the run of writes appends the concatenation to the empty buffer, and the padding adds nothing to it. -/
theorem writesConcatenateTheFields : Obligations.WritesConcatenateTheFields := by
  intro cap fs hfs hc
  obtain ⟨t, rs, hrun, happends, _⟩ := runTrace_writes_resetWith [] hfs hc
  rw [List.append_nil] at hrun happends
  obtain ⟨hflags, hpayload, hlen, hvalue⟩ := happends.of_resetWith
  exact ⟨t, rs, hrun, hflags, hlen, hpayload, by rw [State.streamBits_eight_mul_len happends.inv, hpayload, hvalue]⟩

/-! ### Reads -/

/-- `t` is `s` with the established read cursor moved on by `n` bits. -/
structure State.ReadsPast (s t : State) (n : Nat) : Prop where
  inv : t.Inv
  mem : t.mem = s.mem
  len : t.len = s.len
  wfill : t.wfill = s.wfill
  eflags : t.eflags = s.eflags
  established : t.rfill ≠ 0
  position : t.readPosition = s.readPosition + n

theorem State.ReadsPast.trans {s t u : State} {n m : Nat} (h : s.ReadsPast t n) (h' : t.ReadsPast u m) :
    s.ReadsPast u (n + m) where
  inv := h'.inv
  mem := h'.mem.trans h.mem
  len := h'.len.trans h.len
  wfill := h'.wfill.trans h.wfill
  eflags := h'.eflags.trans h.eflags
  established := h'.established
  position := by rw [h'.position, h.position, Nat.add_assoc]

/-- The response that hands a field back (spec/42_read.md R81). -/
def BitField.readResponse (f : BitField) : Option Response :=
  some { status := .ok, rdata := some (BitVec.ofNat 64 (f.value.toNat % 2 ^ f.bits)), sdst := none }

/-- A read leaves an established read cursor. -/
theorem State.rfillAfterRead_ne_zero (s : State) (n : Nat) : s.rfillAfterRead n ≠ 0 := by
  intro h0
  have hfill := s.toNat_rfillAfterRead n
  have htail : s.readTail n < 8 := Nat.mod_lt _ (by decide)
  rw [h0] at hfill
  change 0 = _ at hfill
  omega

theorem step_read {s : State} {f : BitField} {rest : List HostEvent} (hinv : s.Inv) (hh : s.halted = false)
    (hr : s.rfill ≠ 0) (hin : s.input = f.read :: rest) (hf : f.bits ≤ f.width.bits)
    (hle : s.readPosition + f.bits ≤ 8 * s.len)
    (hvalue : s.mem.streamBits s.readPosition f.bits = f.value.toNat % 2 ^ f.bits) :
    ∃ t, step s = .next t ∧ s.ReadsPast t f.bits ∧ t.response = f.readResponse ∧ t.input = rest := by
  have hinv : (s.present rest 0 []).Inv := hinv.congr rfl rfl
  have hread := execReadBits_of_within (s := s.present rest 0 []) hinv hh hf hr hle
  have hstep := step_of_decode hin (decode_encode (Instr.wellFormed_of_le_bits hf).2)
  exact ⟨_, hstep.trans hread, ⟨exec_inv (i := .readBits f.width f.bits) hinv hread, rfl, rfl, rfl, rfl,
    State.rfillAfterRead_ne_zero _ _, State.readPosition_afterRead _ _⟩, hvalue ▸ rfl, rfl⟩

/-- Reading fields where they stand in the bit string hands every one of them back. -/
theorem runTrace_reads {fs : List BitField} {s : State} (hinv : s.Inv) (hh : s.halted = false) (hr : s.rfill ≠ 0)
    (hin : s.input = fs.map BitField.read) (hfs : ∀ f ∈ fs, f.bits ≤ f.width.bits)
    (hle : s.readPosition + fieldsWidth fs ≤ 8 * s.len)
    (hvalue : s.mem.streamBits s.readPosition (fieldsWidth fs) = fieldsValue fs) :
    ∃ t, runTrace fs.length s = some (t, fs.map BitField.readResponse) ∧ s.ReadsPast t (fieldsWidth fs) := by
  induction fs generalizing s with
  | nil => exact ⟨s, rfl, hinv, rfl, rfl, rfl, rfl, hr, rfl⟩
  | cons f fs ih =>
    rw [fieldsWidth, ← Nat.add_assoc] at hle
    obtain ⟨hfirst, hothers⟩ := Memory.streamBits_split (Nat.mod_lt _ (Nat.two_pow_pos _)) hvalue
    obtain ⟨t, ht, hpast, hresponse, hrest⟩ := step_read hinv hh hr hin (hfs f List.mem_cons_self) (by omega) hfirst
    rw [← hpast.position, ← hpast.len] at hle
    rw [← hpast.position, ← hpast.mem] at hothers
    obtain ⟨u, hrun, hpast'⟩ := ih hpast.inv ((State.halted_congr hpast.eflags).trans hh) hpast.established hrest
      (fun g hg => hfs g (List.mem_cons_of_mem _ hg)) hle hothers
    refine ⟨u, ?_, hpast.trans hpast'⟩
    rw [List.map_cons, ← hresponse]
    exact runTrace_cons ht hrun

/-- Reading all the fields of a buffer that holds them, from its bit 0. -/
theorem runTrace_reads_from_start {fs : List BitField} {s : State} (hinv : s.Inv) (hh : s.halted = false)
    (hr : s.rfill ≠ 0) (hposition : s.readPosition = 0) (hin : s.input = fs.map BitField.read)
    (hfs : ∀ f ∈ fs, f.bits ≤ f.width.bits)
    (hlen : s.len = bytesNeeded (fieldsWidth fs)) (hvalue : s.mem.streamBits 0 (fieldsWidth fs) = fieldsValue fs) :
    ∃ t, runTrace fs.length s = some (t, fs.map BitField.readResponse) ∧ s.ReadsPast t (fieldsWidth fs) ∧
      t.readPosition = fieldsWidth fs := by
  have hroom : s.readPosition + fieldsWidth fs ≤ 8 * s.len := by
    rw [hposition, hlen, Nat.zero_add]
    exact le_eight_mul_bytesNeeded _
  rw [← hposition] at hvalue
  obtain ⟨t, hrun, hpast⟩ := runTrace_reads hinv hh hr hin hfs hroom hvalue
  exact ⟨t, hrun, hpast, by rw [hpast.position, hposition, Nat.zero_add]⟩

/-! ### Round trips -/

/-- REWIND on a non-empty buffer: the read cursor is established at bit 0, nothing else of the stream moves. -/
theorem step_rewind {s : State} {rest : List HostEvent} (hinv : s.Inv) (hh : s.halted = false) (hlen : 1 ≤ s.len)
    (hin : s.input = rewindEvent :: rest) :
    ∃ t, step s = .next t ∧ t.Inv ∧ t.mem = s.mem ∧ t.len = s.len ∧ t.eflags = s.eflags ∧ t.rfill ≠ 0 ∧
      t.readPosition = 0 ∧ t.lastStatus = some .ok ∧ t.input = rest := by
  have hinv : (s.present rest 0 []).Inv := hinv.congr rfl rfl
  have hstep := step_of_decode hin (decode_encode (i := .rewind) (Nat.zero_le 127))
  have hexec := execRewind_of_running (s := s.present rest 0 []) hh
  have hrfill : alignedFill s.len ≠ 0 := fun h0 => absurd (alignedFill_of_pos hlen) (by rw [h0]; decide)
  exact ⟨_, hstep.trans hexec, exec_inv (i := .rewind) hinv hexec, rfl, rfl, rfl, hrfill,
    State.seekStart_readPosition (s := s.present rest 0 []) hlen, rfl, rfl⟩

/-- Where an established read cursor stands, in bytes: past `ROFF` whole bytes, and inside one more unless it is aligned. -/
theorem State.roff_eq_readPosition_div {s : State} (h : s.Inv) (hr : s.rfill ≠ 0) :
    s.roff = s.readPosition / 8 ∧ s.roff + (if s.rfill.toNat < 8 then 1 else 0) = bytesNeeded s.readPosition := by
  obtain ⟨h1, h8⟩ := State.rfill_bounds h hr
  rw [State.readPosition, State.headReadBits, bytesNeeded_eight_mul_add]
  refine ⟨by omega, congrArg (s.roff + ·) ?_⟩
  rw [bytesNeeded]
  split <;> omega

/-- Settles O59: the writes append the concatenation to the empty buffer, REWIND puts the read cursor before it, and the
reads take it apart again. -/
theorem roundTripAfterRewind : Obligations.RoundTripAfterRewind := by
  intro cap fs hfs hpos hc
  obtain ⟨t, ws, hwrites, happends, hwok, hin⟩ :=
    runTrace_writes_resetWith (rewindEvent :: fs.map BitField.read) hfs hc
  obtain ⟨hflags, _, hlen, hvalue⟩ := happends.of_resetWith
  have hh : t.halted = false := happends.halted.trans (State.resetWith_halted cap)
  obtain ⟨u, hu, huinv, humem, hulen, huflags, hurfill, huposition, huok, huin⟩ :=
    step_rewind happends.inv hh (hlen ▸ bytesNeeded_pos _ hpos) hin
  rw [← humem] at hvalue
  obtain ⟨x, hreads, hpast, hposition⟩ := runTrace_reads_from_start huinv ((State.halted_congr huflags).trans hh) hurfill
    huposition huin hfs (hulen.trans hlen) hvalue
  obtain ⟨hroff, hpartial⟩ := State.roff_eq_readPosition_div hpast.inv hpast.established
  have hfirst := runTrace_trans hwrites (runTrace_cons (k := 0) hu rfl)
  refine ⟨x, _, runTrace_trans hfirst hreads, (hpast.eflags.trans huflags).trans hflags, fun r hr => ?status, ?values,
    hposition, hposition ▸ hroff, ?bytes⟩
  case status =>
    simp only [List.mem_append, List.mem_singleton, List.mem_map] at hr
    rcases hr with (hr | rfl) | ⟨f, _, rfl⟩
    · exact hwok r hr
    · exact huok
    · rfl
  case values => exact List.drop_left' (runTrace_length hfirst)
  case bytes => rw [hpartial, hposition, hpast.len, hulen, hlen]

/-- A first field of at least 8 bits, then any others, written into an empty buffer: the concatenation, with the read cursor
established at bit 0 (spec/41_write.md R69). -/
theorem runTrace_writes_wide {g : BitField} {fs : List BitField} {s : State} {rest : List HostEvent} (hinv : s.Inv)
    (hh : s.halted = false) (hlen : s.len = 0) (hg : 8 ≤ g.bits) (hin : s.input = (g :: fs).map BitField.write ++ rest)
    (hfs : ∀ f ∈ g :: fs, f.bits ≤ f.width.bits)
    (hc : withinCapacity s.cap (bytesNeeded (s.payloadBits + fieldsWidth (g :: fs))) = true) :
    ∃ t rs, runTrace (g :: fs).length s = some (t, rs) ∧ s.Appends t (fieldsWidth (g :: fs)) (fieldsValue (g :: fs)) ∧
      t.rfill ≠ 0 ∧ t.readPosition = 0 ∧ t.input = rest := by
  rw [fieldsWidth, ← Nat.add_assoc] at hc
  have hfits := withinCapacity_mono (bytesNeeded_mono (Nat.le_add_right ..)) hc
  obtain ⟨t, ht, hexec, hok, happends, hrest⟩ := step_write hinv hh hin (hfs g List.mem_cons_self) hfits
  obtain ⟨hrfill, hposition⟩ := firstWriteEstablishesTheReadCursor.1 _ _ _ _
    (hinv.congr (t := s.present (fs.map BitField.write ++ rest) g.value []) rfl rfl) hlen (by omega) hexec hok
  have htlen : 1 ≤ t.len := by
    rw [State.len_eq_bytesNeeded happends.inv, happends.payload]
    exact bytesNeeded_pos _ (by omega)
  rw [← happends.payload, ← happends.cap] at hc
  obtain ⟨u, rs, hrun, happends', _, hlast⟩ := runTrace_writes happends.inv (happends.halted.trans hh) hrest
    (fun f hf => hfs f (List.mem_cons_of_mem _ hf)) hc
  obtain ⟨huroff, hurfill⟩ := happends'.cursor htlen
  refine ⟨u, _, runTrace_cons ht hrun, happends.trans happends', fun h0 => ?_, ?_, hlast⟩
  · rw [← hurfill, h0] at hrfill
    change 0 = _ at hrfill
    omega
  · rw [State.readPosition, State.headReadBits, huroff, hurfill, ← State.headReadBits, ← State.readPosition, hposition]
    omega

/-- The same from reset, after fields of no bits, which leave the empty buffer. -/
theorem runTrace_writes_wide_resetWith {cap : Capacity} {zs fs : List BitField} {g : BitField} (rest : List HostEvent)
    (hzs : ∀ f ∈ zs, f.bits = 0) (hg : 8 ≤ g.bits) (hfs : ∀ f ∈ g :: fs, f.bits ≤ f.width.bits)
    (hc : withinCapacity cap (bytesNeeded (fieldsWidth (g :: fs))) = true) :
    ∃ t rs, runTrace (zs ++ g :: fs).length
        ((State.resetWith cap).withInput ((zs ++ g :: fs).map BitField.write ++ rest)) = some (t, rs) ∧
      ((State.resetWith cap).withInput ((zs ++ g :: fs).map BitField.write ++ rest)).Appends t
        (fieldsWidth (zs ++ g :: fs)) (fieldsValue (zs ++ g :: fs)) ∧
      t.rfill ≠ 0 ∧ t.readPosition = 0 ∧ t.input = rest := by
  obtain ⟨hwidth, hvalue⟩ := fields_append_of_empty hzs (g :: fs)
  have hzwidth : fieldsWidth zs = 0 := zs.append_nil ▸ (fields_append_of_empty hzs []).1
  have hzvalue : fieldsValue zs = 0 := zs.append_nil ▸ (fields_append_of_empty hzs []).2
  have hzfits : withinCapacity cap (bytesNeeded (fieldsWidth zs)) = true := hzwidth ▸ withinCapacity_zero cap
  rw [List.map_append, List.append_assoc]
  obtain ⟨t, zrs, hzrun, hzappends, _, hzin⟩ := runTrace_writes_resetWith ((g :: fs).map BitField.write ++ rest)
    (fun f hf => hzs f hf ▸ Nat.zero_le _) hzfits
  rw [hzwidth, hzvalue] at hzappends
  obtain ⟨_, hzpayload, hzlen, _⟩ := hzappends.of_resetWith
  have hh : t.halted = false := hzappends.halted.trans (State.resetWith_halted cap)
  have hfits : withinCapacity t.cap (bytesNeeded (t.payloadBits + fieldsWidth (g :: fs))) = true := by
    rw [hzpayload, Nat.zero_add, hzappends.cap]
    exact hc
  obtain ⟨u, rs, hrun, happends, hcursor⟩ := runTrace_writes_wide hzappends.inv hh hzlen hg hzin hfs hfits
  have hwhole := hzappends.trans happends
  rw [Nat.zero_add, pow_zero, Nat.one_mul, Nat.zero_add, ← hwidth, ← hvalue] at hwhole
  exact ⟨u, _, List.length_append ▸ runTrace_trans hzrun hrun, hwhole, hcursor⟩

/-- Settles O60: the wide field leaves the read cursor at bit 0 of the concatenation, and the reads take it apart again. -/
theorem roundTripOfAWideFirstField : Obligations.RoundTripOfAWideFirstField := by
  intro cap zs fs g hzs hg hfs hc
  obtain ⟨t, ws, hwrites, happends, hrfill, hposition, hin⟩ :=
    runTrace_writes_wide_resetWith ((zs ++ g :: fs).map BitField.read) hzs hg hfs hc
  obtain ⟨hflags, hpayload, hlen, hvalue⟩ := happends.of_resetWith
  have hall : ∀ f ∈ zs ++ g :: fs, f.bits ≤ f.width.bits :=
    List.forall_mem_append.2 ⟨fun f hf => hzs f hf ▸ Nat.zero_le _, hfs⟩
  obtain ⟨x, hreads, hpast, hend⟩ := runTrace_reads_from_start happends.inv
    (happends.halted.trans (State.resetWith_halted cap)) hrfill hposition hin hall hlen hvalue
  refine ⟨x, _, runTrace_trans hwrites hreads, hpast.eflags.trans hflags, List.drop_left' (runTrace_length hwrites), ?_⟩
  calc x.readPosition
      = fieldsWidth (zs ++ g :: fs) := hend
    _ = t.payloadBits := hpayload.symm
    _ = x.payloadBits := by rw [State.payloadBits, State.payloadBits, hpast.len, hpast.wfill]

end Sys2Proof.Machine
